-- ==== Sys2Proof/Word.lean ====
section
/-! DEFINITION. The bit-vector types whose width the spec fixes: a byte is 8 bits (20_memory.md R41), the
command word is 6 bits (30_encoding.md R71). Widths that depend on the parameters stand in Config.lean. -/

namespace Sys2Proof

/-- The smallest unit any operation moves (R41). -/
abbrev Byte := BitVec 8

/-- The command word on the port `cmd` (R71). -/
abbrev CmdWord := BitVec 6

end Sys2Proof
end

