-- ==== Sys2Proof/Config.lean ====
section
/-! DEFINITION. The static parameters of one instance, `endian_codec(W, N, NATIVE, LMAX)` (00_scope.md R8 to
R12), and the constants derived from them (R9). They are held in State, so that every claim about every
state is a claim about every instance (log 1). -/

namespace Sys2Proof

/-- A fixed byte order: big-endian or little-endian (20_memory.md R42). -/
inductive Endian where
  | be
  | le
  deriving DecidableEq, Repr

/-- The parameters of an instance. `W` is given by its exponent `k` (R8). -/
structure Config where
  /-- `W = 8·2^k` (R8). -/
  k : Nat
  /-- `N`, the digit count (R10). -/
  n : Nat
  /-- `NATIVE` (R11). -/
  native : Endian
  /-- `LMAX`, the port capacity for a slice in bytes (R12). -/
  lmax : Nat
  deriving DecidableEq, Repr

namespace Config

/-- `BYTES = W/8 = 2^k` (R8, R9). -/
def bytes (c : Config) : Nat := 2 ^ c.k

/-- `BYTE_SHIFT = log2(BYTES) = k` (R9). -/
def byteShift (c : Config) : Nat := c.k

/-- `W`, the digit width in bits (R8). -/
def w (c : Config) : Nat := 8 * c.bytes

/-- `T = N·BYTES`, the length of an exact array (R10, 42_exact_array.md). -/
def total (c : Config) : Nat := c.n * c.bytes

/-- `N·W`, the width of a value (R10, 10_state.md R33). -/
def valBits (c : Config) : Nat := c.n * c.w

/-- `LENW = ceil(log2(LMAX+1))`, the width of `len_in` (30_encoding.md R70). -/
def lenW (c : Config) : Nat := if c.lmax = 0 then 0 else Nat.log2 c.lmax + 1

end Config

/-- A digit: `W` bits, bit `W−1` most significant (10_state.md R28). -/
abbrev Digit (c : Config) := BitVec c.w

/-- A value, `Uint<N>` or `Int<N>`: the `N·W` bits of its digit vector, digit `i` at bits `W·i .. W·i+W−1`
(R29, R30, R33, 30_encoding.md R73). `nat(x)` is `x.toNat` and `int(x)` is `x.toInt`. -/
abbrev Value (c : Config) := BitVec c.valBits

end Sys2Proof
end

