-- ==== Sys2Proof/Syntax.lean ====
section
/-! DEFINITION. The command set: the 24 commands of spec/opcode_table.json (00_scope.md R4, 30_encoding.md R83)
and the three fields of the one format CMD6 (R71). No operand is encoded in a command word (R82), so no
constructor has an argument. -/

namespace Sys2Proof

/-- Field `S`, the flavour (R77). -/
inductive Flavour where
  | unsigned
  | signed
  deriving DecidableEq, Repr

/-- Field `FAM`, the operation family (R78). -/
inductive Family where
  | fromBytes
  | toBytes
  | fromSlice
  | toOrder
  | fromOrder
  deriving DecidableEq, Repr

/-- Field `ORD`, the byte order (R79). -/
inductive ByteOrder where
  | be
  | le
  | ne
  deriving DecidableEq, Repr

/-- The commands, one constructor per row of the opcode table (R83). -/
inductive Instr where
  | uintFromBeBytes
  | uintFromLeBytes
  | uintFromNeBytes
  | uintToBeBytes
  | uintToLeBytes
  | uintToNeBytes
  | uintFromBeSlice
  | uintFromLeSlice
  | uintToBe
  | uintToLe
  | uintFromBe
  | uintFromLe
  | intFromBeBytes
  | intFromLeBytes
  | intFromNeBytes
  | intToBeBytes
  | intToLeBytes
  | intToNeBytes
  | intFromBeSlice
  | intFromLeSlice
  | intToBe
  | intToLe
  | intFromBe
  | intFromLe
  deriving DecidableEq, Repr

end Sys2Proof
end

