-- ==== Sys2Proof/WellFormed.lean ====
section
/-! DEFINITION. What must hold before the rules do (70_reset_and_hazards.md R234) and what a request must meet to
be legal (R244). A command has no operand field (30_encoding.md R82), so every `Instr` is well formed; the
checks are on the parameters and on the slice length. -/

namespace Sys2Proof

/-- `N ≥ 1`: digit `N−1`, which carries the sign, exists (00_scope.md R10, decision D2). -/
def Config.digitCountOk (c : Config) : Bool := decide (1 ≤ c.n)

/-- `LMAX ≥ N·BYTES`: an exact array fits the byte port (00_scope.md R12, R234). -/
def Config.portOk (c : Config) : Bool := decide (c.total ≤ c.lmax)

/-- The parameters make an instance (R234). `W = 8·2^k` holds of every `k`, and `NATIVE` has no bad value. -/
def Config.wf (c : Config) : Bool := c.digitCountOk && c.portOk

/-- A slice length the port can carry (30_encoding.md R87). -/
def Config.lengthOk (c : Config) (len : Nat) : Bool := decide (len ≤ c.lmax)

end Sys2Proof
end

