-- ==== Sys2Proof/Decode.lean ====
section
/-! DEFINITION. The decoder of the 6-bit command word, total, refusing by name (30_encoding.md R71, R77 to R81,
R83), and the encoder, written from the same tables. -/

namespace Sys2Proof

/-- Why a command word is reserved (R80). All three give `ILLEGAL` and nothing distinguishes them outside. -/
inductive Reject where
  /-- `FAM` is 101, 110 or 111 (R78). -/
  | reservedFamily
  /-- `ORD` is 11 in a defined family (R79). -/
  | reservedOrder
  /-- `ORD` is NE in a family without a native-order operation (R79). -/
  | nativeNotDefined
  deriving DecidableEq, Repr

/-- `cmd[5]` (R77). -/
def flavourOf (cmd : CmdWord) : Flavour :=
  if (cmd.extractLsb' 5 1).toNat = 1 then .signed else .unsigned

/-- `cmd[4:2]` (R78). -/
def familyOf (cmd : CmdWord) : Option Family :=
  match (cmd.extractLsb' 2 3).toNat with
  | 0 => some .fromBytes
  | 1 => some .toBytes
  | 2 => some .fromSlice
  | 3 => some .toOrder
  | 4 => some .fromOrder
  | _ => none

/-- `cmd[1:0]` (R79). -/
def orderOf (cmd : CmdWord) : Option ByteOrder :=
  match (cmd.extractLsb' 0 2).toNat with
  | 0 => some .be
  | 1 => some .le
  | 2 => some .ne
  | _ => none

/-- The pair `(FAM, ORD)` looked up in the opcode map, with `S` attached (R81, R83). -/
def lookup (s : Flavour) (f : Family) (o : ByteOrder) : Option Instr :=
  match f, o, s with
  | .fromBytes, .be, .unsigned => some .uintFromBeBytes
  | .fromBytes, .be, .signed => some .intFromBeBytes
  | .fromBytes, .le, .unsigned => some .uintFromLeBytes
  | .fromBytes, .le, .signed => some .intFromLeBytes
  | .fromBytes, .ne, .unsigned => some .uintFromNeBytes
  | .fromBytes, .ne, .signed => some .intFromNeBytes
  | .toBytes, .be, .unsigned => some .uintToBeBytes
  | .toBytes, .be, .signed => some .intToBeBytes
  | .toBytes, .le, .unsigned => some .uintToLeBytes
  | .toBytes, .le, .signed => some .intToLeBytes
  | .toBytes, .ne, .unsigned => some .uintToNeBytes
  | .toBytes, .ne, .signed => some .intToNeBytes
  | .fromSlice, .be, .unsigned => some .uintFromBeSlice
  | .fromSlice, .be, .signed => some .intFromBeSlice
  | .fromSlice, .le, .unsigned => some .uintFromLeSlice
  | .fromSlice, .le, .signed => some .intFromLeSlice
  | .fromSlice, .ne, _ => none
  | .toOrder, .be, .unsigned => some .uintToBe
  | .toOrder, .be, .signed => some .intToBe
  | .toOrder, .le, .unsigned => some .uintToLe
  | .toOrder, .le, .signed => some .intToLe
  | .toOrder, .ne, _ => none
  | .fromOrder, .be, .unsigned => some .uintFromBe
  | .fromOrder, .be, .signed => some .intFromBe
  | .fromOrder, .le, .unsigned => some .uintFromLe
  | .fromOrder, .le, .signed => some .intFromLe
  | .fromOrder, .ne, _ => none

/-- Every 6-bit word is one of the 24 commands or is refused by name; the decoder looks at nothing else (R81). -/
def decode (cmd : CmdWord) : Except Reject Instr :=
  match familyOf cmd, orderOf cmd with
  | none, _ => .error .reservedFamily
  | some _, none => .error .reservedOrder
  | some f, some o =>
    match lookup (flavourOf cmd) f o with
    | some i => .ok i
    | none => .error .nativeNotDefined

/-- The three fields of a command, from its row of the opcode map (R83). -/
def Instr.fields : Instr → Flavour × Family × ByteOrder
  | .uintFromBeBytes => (.unsigned, .fromBytes, .be)
  | .uintFromLeBytes => (.unsigned, .fromBytes, .le)
  | .uintFromNeBytes => (.unsigned, .fromBytes, .ne)
  | .uintToBeBytes => (.unsigned, .toBytes, .be)
  | .uintToLeBytes => (.unsigned, .toBytes, .le)
  | .uintToNeBytes => (.unsigned, .toBytes, .ne)
  | .uintFromBeSlice => (.unsigned, .fromSlice, .be)
  | .uintFromLeSlice => (.unsigned, .fromSlice, .le)
  | .uintToBe => (.unsigned, .toOrder, .be)
  | .uintToLe => (.unsigned, .toOrder, .le)
  | .uintFromBe => (.unsigned, .fromOrder, .be)
  | .uintFromLe => (.unsigned, .fromOrder, .le)
  | .intFromBeBytes => (.signed, .fromBytes, .be)
  | .intFromLeBytes => (.signed, .fromBytes, .le)
  | .intFromNeBytes => (.signed, .fromBytes, .ne)
  | .intToBeBytes => (.signed, .toBytes, .be)
  | .intToLeBytes => (.signed, .toBytes, .le)
  | .intToNeBytes => (.signed, .toBytes, .ne)
  | .intFromBeSlice => (.signed, .fromSlice, .be)
  | .intFromLeSlice => (.signed, .fromSlice, .le)
  | .intToBe => (.signed, .toOrder, .be)
  | .intToLe => (.signed, .toOrder, .le)
  | .intFromBe => (.signed, .fromOrder, .be)
  | .intFromLe => (.signed, .fromOrder, .le)

/-- `S` as a bit (R77). -/
def Flavour.bit : Flavour → BitVec 1
  | .unsigned => 0b0#1
  | .signed => 0b1#1

/-- `FAM` as bits (R78). -/
def Family.bits : Family → BitVec 3
  | .fromBytes => 0b000#3
  | .toBytes => 0b001#3
  | .fromSlice => 0b010#3
  | .toOrder => 0b011#3
  | .fromOrder => 0b100#3

/-- `ORD` as bits (R79). -/
def ByteOrder.bits : ByteOrder → BitVec 2
  | .be => 0b00#2
  | .le => 0b01#2
  | .ne => 0b10#2

/-- The command word `S‖FAM‖ORD` (R71). -/
def encode (i : Instr) : CmdWord :=
  i.fields.1.bit ++ i.fields.2.1.bits ++ i.fields.2.2.bits

/-- The instruction read from an opcode-table word. The word is presented whole (20_memory.md R45) and has six
bits, so a number that needs a seventh is no command word (log 4). -/
def decodeTableWord (_nbits w : Nat) : Option Instr :=
  if w < 64 then
    match decode (BitVec.ofNat 6 w) with
    | .ok i => some i
    | .error _ => none
  else none

end Sys2Proof
end

