-- ==== Sys2Proof/Machine/State.lean ====
section
/-! DEFINITION. The state: the parameters of the instance and the signals on its ports (30_encoding.md R70). The
block has no state that outlives an operation (10_state.md R20), so nothing else is here (logs 1, 2, 3, 7). -/

namespace Sys2Proof.Machine

/-- The outcome of an operation, port `status` (30_encoding.md R76); the code 11 is never produced (U8). -/
inductive Status where
  | ok
  | overflow
  | illegal
  deriving DecidableEq, Repr

/-- The input ports, driven by the requester (R70). -/
structure Inputs (c : Config) where
  /-- `cmd` (R71). -/
  cmd : CmdWord
  /-- `val_in` (R73). -/
  valIn : Value c
  /-- `bytes_in`: the byte at position `j` is bits `8j+7 .. 8j` (R74). -/
  bytesIn : BitVec (8 * c.lmax)
  /-- `len_in` (R74). -/
  lenIn : BitVec c.lenW
  deriving DecidableEq, Repr

/-- The output ports (R70, R75, R76). -/
structure Outputs (c : Config) where
  /-- `val_out` (R75). -/
  valOut : Value c
  /-- `bytes_out`, `N·BYTES` lanes laid out as `bytes_in` (R74, R75). -/
  bytesOut : BitVec (8 * c.total)
  /-- `status` (R76). -/
  status : Status
  deriving DecidableEq, Repr

/-- The reasons a step can stop with a fault: none. Nothing in the function set traps, hangs or is undefined
(00_scope.md section 6); `OVERFLOW` and `ILLEGAL` are responses, that is, next states (60_exceptions.md R200, R203).
Unsafe only if the spec is wrong about that (log 8). -/
inductive Fault where
  deriving DecidableEq, Repr

/-- The reasons a step can be refused. -/
inductive Refusal where
  /-- Raised by an arm of `exec` whose instruction has no meaning yet; no arm is left so. Safe. -/
  | notModelled (mnemonic : String)
  /-- Raised by every operation when the parameters make no instance: `N = 0`, or `LMAX < N·BYTES`
  (00_scope.md R10, R12, U3: refuse). Safe. -/
  | notAnInstance
  deriving DecidableEq, Repr

end Sys2Proof.Machine

namespace Sys2Proof.Machine

/-- One instance with the signals on its ports. -/
structure State where
  /-- The static parameters; `cfg.native` is also the strap `native_big` (R72). -/
  cfg : Config
  /-- The request present on the input ports. -/
  inp : Inputs cfg
  /-- The response present on the output ports. -/
  out : Outputs cfg
  deriving DecidableEq, Repr

/-- The block just powered up (70_reset_and_hazards.md R230, R231): the spec's own example instance
(95_test_vectors.md section 3.6) with all input lines low, and the outputs that are the function of those inputs.
The parameters and the input levels are choices of the model (logs 1, 2). -/
def State.reset : State where
  cfg := { k := 0, n := 2, native := .le, lmax := 4 }
  inp := { cmd := 0#6, valIn := 0#16, bytesIn := 0#32, lenIn := 0#3 }
  out := { valOut := 0#16, bytesOut := 0#16, status := .ok }

end Sys2Proof.Machine
end

