-- ==== Sys2Proof/Machine/Ops.lean ====
section
/-! DEFINITION. The named operations: reading byte sequences as numbers (00_scope.md section 5.1), `MemRead` and
`MemWrite` (section 5.3), the sub-units `digit_to_bytes` and `bytes_to_digit` (40_digit_units.md), the two views of
a value (20_memory.md R43, R46), the bus layouts (30_encoding.md R73, R74), and driving a response, success or
failure (R75, R76; 60_exceptions.md R200, R203). -/

namespace Sys2Proof.Machine

/-! Byte sequences as numbers. -/

/-- `be_nat(b) = Σ b[j]·256^(L−1−j)` (00_scope.md section 5.1). -/
def beNat : List Byte → Nat
  | [] => 0
  | b :: bs => b.toNat * 256 ^ bs.length + beNat bs

/-- `le_nat(b) = Σ b[j]·256^j` (00_scope.md section 5.1). -/
def leNat : List Byte → Nat
  | [] => 0
  | b :: bs => b.toNat + 256 * leNat bs

/-- The number of a byte sequence in a fixed order. -/
def natOf : Endian → List Byte → Nat
  | .be, b => beNat b
  | .le, b => leNat b

/-- `signed_m(u)`, the two's-complement reading of an `m`-bit pattern, `m ≥ 1` (00_scope.md section 5.1). -/
def signedRead (m u : Nat) : Int :=
  if u < 2 ^ (m - 1) then (u : Int) else (u : Int) - 2 ^ m

/-- `NE` is resolved through the one parameter `NATIVE` (R44, R103). -/
def resolve (c : Config) : ByteOrder → Endian
  | .be => .be
  | .le => .le
  | .ne => c.native

/-! The operand and result lists. -/

/-- `MemRead(addr, n)`: the positions `addr .. addr+n−1` of the input sequence (00_scope.md section 5.3). -/
def memRead (src : List Byte) (addr n : Nat) : List Byte :=
  (src.drop addr).take n

/-- `MemWrite(addr, n, v)`: set the positions `addr .. addr+n−1` of the output array, `n` the length of `v`
(00_scope.md section 5.3). -/
def memWrite (dst : List Byte) (addr : Nat) (v : List Byte) : List Byte :=
  dst.take addr ++ v ++ dst.drop (addr + v.length)

/-- Byte `j` of a bit pattern, counted from the least significant: bits `8j+7 .. 8j` (R28, R40). On a byte bus it
is lane `j` (R74). -/
def byteAt {m : Nat} (x : BitVec m) (j : Nat) : Byte :=
  x.extractLsb' (8 * j) 8

/-- The first `n` lanes of a byte bus, position 0 first (R74). -/
def lanes {m : Nat} (bus : BitVec m) (n : Nat) : List Byte :=
  (List.range n).map (byteAt bus)

/-- A byte array laid on `bytes_out`: read as one number the bus is `le_nat` of the array (R74). -/
def packBytes (c : Config) (a : List Byte) : BitVec (8 * c.total) :=
  BitVec.ofNat (8 * c.total) (leNat a)

/-! `digit_to_bytes` and `bytes_to_digit`. -/

/-- `digit_to_bytes(d, BE)` and `digit_to_bytes(d, LE)` (R100). -/
def digitToBytes (c : Config) (d : Digit c) : Endian → List Byte
  | .be => (List.range c.bytes).map (fun k => byteAt d (c.bytes - 1 - k))
  | .le => (List.range c.bytes).map (fun k => byteAt d k)

/-- `digit_to_bytes(d, ord)` for the three orders (R100, R103). -/
def digitToBytesOrd (c : Config) (d : Digit c) (o : ByteOrder) : List Byte :=
  digitToBytes c d (resolve c o)

/-- `bytes_to_digit(b, BE)` and `bytes_to_digit(b, LE)`, for a list of exactly `BYTES` bytes (R104; log 11). -/
def bytesToDigit (c : Config) (b : List Byte) (e : Endian) : Digit c :=
  BitVec.ofNat c.w (natOf e b)

/-- `bytes_to_digit(b, ord)` for the three orders (R104). -/
def bytesToDigitOrd (c : Config) (b : List Byte) (o : ByteOrder) : Digit c :=
  bytesToDigit c b (resolve c o)

/-- `bswap(d)`: byte `k`, from the least significant end, is byte `BYTES−1−k` of `d` (R105). -/
def bswap (c : Config) (d : Digit c) : Digit c :=
  BitVec.ofNat c.w (leNat ((List.range c.bytes).map (fun k => byteAt d (c.bytes - 1 - k))))

/-! A value as digits. -/

/-- Digit `i` of a value: bits `W·i+W−1 .. W·i` (R73). -/
def digit (c : Config) (x : Value c) (i : Nat) : Digit c :=
  x.extractLsb' (c.w * i) c.w

/-- `Σ x[i]·2^(W·i)` over a list of digits, `x[0]` least significant (R29). -/
def digitsNat (c : Config) : List (Digit c) → Nat
  | [] => 0
  | d :: ds => d.toNat + 2 ^ c.w * digitsNat c ds

/-- The value whose digits are the list, `d[0]` least significant (R29, R136). -/
def assemble (c : Config) (ds : List (Digit c)) : Value c :=
  BitVec.ofNat c.valBits (digitsNat c ds)

/-- `ZERO`, the all-zero digit (00_scope.md section 5.1). -/
def zeroDigit (c : Config) : Digit c := BitVec.ofNat c.w 0

/-- `ALL1 = 2^W − 1`, the all-ones digit (00_scope.md section 5.1). -/
def allOnesDigit (c : Config) : Digit c := BitVec.ofNat c.w (2 ^ c.w - 1)

/-- The canonical zero value: all `N` digits `ZERO` (R32). -/
def zeroValue (c : Config) : Value c := assemble c (List.replicate c.n (zeroDigit c))

/-! The response. -/

/-- A value result on `val_out`; `bytes_out` is all-zero (R75). -/
def valueResult (c : Config) (x : Value c) : Outputs c :=
  { valOut := x, bytesOut := 0, status := .ok }

/-- An array result on `bytes_out`; `val_out` is all-zero (R75). -/
def bytesResult (c : Config) (a : List Byte) : Outputs c :=
  { valOut := 0, bytesOut := packBytes c a, status := .ok }

/-- A failure: both result buses all-zero and nothing recorded but the status (R75, R200, R202, R203). This is all
that "taking an exception" is here: no state is saved and control goes nowhere (R208), and there is no return
(R209). -/
def failure (c : Config) (st : Status) : Outputs c :=
  { valOut := 0, bytesOut := 0, status := st }

/-- The state with the response on the output ports; parameters and inputs are not driven by the block (R31). -/
def State.drive (s : State) (o : Outputs s.cfg) : State := { s with out := o }

/-- The requester places a request on the input ports (R244). Not a step of the block. -/
def State.present (s : State) (r : Inputs s.cfg) : State := { s with inp := r }

/-- Complete an operation with its response; parameters that make no instance are refused (R10, R12, U3). -/
def respond (s : State) (o : Outputs s.cfg) : Host.Outcome State Fault Refusal :=
  if s.cfg.wf then .next (s.drive o) else .refused .notAnInstance

/-- The interface's refusal of a request, `ILLEGAL` (R80, R87, R203). -/
def illegal (s : State) : Host.Outcome State Fault Refusal :=
  respond s (failure s.cfg .illegal)

end Sys2Proof.Machine
end

