-- ==== Sys2Proof/Machine/Operands.lean ====
section
/-! DEFINITION. The operand forms: which ports each family reads (30_encoding.md R82). -/

namespace Sys2Proof.Machine

/-- `native_big`: 1 = BE, 0 = LE (R72). -/
def nativeBig (c : Config) : BitVec 1 :=
  match c.native with
  | .be => 1#1
  | .le => 0#1

/-- The value operand on `val_in` (R73). -/
def valueOperand (s : State) : Value s.cfg := s.inp.valIn

/-- The array operand: positions `0 .. N·BYTES−1` of `bytes_in`; `len_in` is ignored (R74). -/
def arrayOperand (s : State) : List Byte := lanes s.inp.bytesIn s.cfg.total

/-- `L = len_in` (R74). -/
def sliceLength (s : State) : Nat := s.inp.lenIn.toNat

/-- The slice operand: positions `0 .. L−1` of `bytes_in` (R74, R143). -/
def sliceOperand (s : State) : List Byte := lanes s.inp.bytesIn (sliceLength s)

end Sys2Proof.Machine
end

