-- ==== Sys2Proof/Machine/Flags.lean ====
section
/-! DEFINITION. The flag-like values: the sign logic and the verdict of the truncation detector, both local to one
slice decode (10_state.md R25; 40_digit_units.md R108 to R115), and the code of `status` (30_encoding.md R76). -/

namespace Sys2Proof.Machine

/-- The code on the port `status` (R76). -/
def Status.code : Status → BitVec 2
  | .ok => 0b00#2
  | .overflow => 0b01#2
  | .illegal => 0b10#2

/-- The slice's most-significant byte: the first of a big-endian slice, the last of a little-endian one; used on
non-empty slices only (R54). -/
def msByte (src : List Byte) : Endian → Byte
  | .be => src.getD 0 0
  | .le => src.getD (src.length - 1) 0

/-- `is_negative` from the flavour and the most-significant byte (R108). -/
def isNegative (f : Flavour) (msb : Byte) : Bool :=
  match f with
  | .signed => msb.getLsbD 7
  | .unsigned => false

/-- `sign_bits` (R109). -/
def signBits (c : Config) (neg : Bool) : Digit c :=
  if neg then allOnesDigit c else zeroDigit c

/-- `pad` (R110). -/
def padByte (neg : Bool) : Byte :=
  if neg then 0xFF#8 else 0x00#8

/-- `pad_chunk(part, ord)` (R112): the pad bytes are on the most-significant side in both orders (R49, D13). -/
def padChunk (c : Config) (part : List Byte) (e : Endian) (pad : Byte) : Digit c :=
  match e with
  | .be => bytesToDigit c (List.replicate (c.bytes - part.length) pad ++ part) .be
  | .le => bytesToDigit c (part ++ List.replicate (c.bytes - part.length) pad) .le

/-- The verdict on one chunk. -/
inductive Verdict where
  | store
  | skip
  | fail
  deriving DecidableEq, Repr

/-- Bit `W−1` of a digit, its sign (R107). -/
def digitSign (c : Config) (d : Digit c) : Bool := d.getLsbD (c.w - 1)

/-- `truncation_detector` (R114 for the signed flavour, R115 for the unsigned). -/
def verdict (c : Config) (f : Flavour) (i : Nat) (chunk : Digit c) (neg : Bool) : Verdict :=
  match f with
  | .signed =>
    if i + 1 < c.n then .store
    else if i + 1 = c.n then
      if digitSign c chunk = neg then .store else .fail
    else if chunk = signBits c neg then .skip else .fail
  | .unsigned =>
    if i < c.n then .store
    else if chunk = zeroDigit c then .skip else .fail

end Sys2Proof.Machine
end

