-- ==== Sys2Proof/Machine/ExactArray.lean ====
section
/-! DEFINITION. Families TO_BYTES and FROM_BYTES: exact-length array conversions (42_exact_array.md). The two
flavours give bit-identical results (R167), and nothing fails (R170). -/

namespace Sys2Proof.Machine

/-- Where digit `i` stands in an array: `(N−1−i)·BYTES` big-endian, `i·BYTES` little-endian (R43). -/
def digitPosition (c : Config) (e : Endian) (i : Nat) : Nat :=
  match e with
  | .be => (c.n - 1 - i) * c.bytes
  | .le => i * c.bytes

/-- `to_be_bytes` and `to_le_bytes`: for each digit, `MemWrite` of its bytes (R160, R161). -/
def toBytes (c : Config) (x : Value c) (e : Endian) : List Byte :=
  (List.range c.n).foldl
    (fun dst i => memWrite dst (digitPosition c e i) (digitToBytes c (digit c x i) e))
    (List.replicate c.total 0)

/-- `from_be_bytes` and `from_le_bytes`: each digit from `MemRead` of its bytes (R163, R164). -/
def fromBytes (c : Config) (a : List Byte) (e : Endian) : Value c :=
  assemble c ((List.range c.n).map
    (fun i => bytesToDigit c (memRead a (digitPosition c e i) c.bytes) e))

/-- A TO_BYTES command. -/
def toBytesCommand (o : ByteOrder) (s : State) : Host.Outcome State Fault Refusal :=
  respond s (bytesResult s.cfg (toBytes s.cfg (valueOperand s) (resolve s.cfg o)))

/-- A FROM_BYTES command. -/
def fromBytesCommand (o : ByteOrder) (s : State) : Host.Outcome State Fault Refusal :=
  respond s (valueResult s.cfg (fromBytes s.cfg (arrayOperand s) (resolve s.cfg o)))

/-- `uint.to_be_bytes` (R160). -/
def execUintToBeBytes (s : State) : Host.Outcome State Fault Refusal := toBytesCommand .be s

/-- `uint.to_le_bytes` (R161). -/
def execUintToLeBytes (s : State) : Host.Outcome State Fault Refusal := toBytesCommand .le s

/-- `uint.to_ne_bytes` (R162). -/
def execUintToNeBytes (s : State) : Host.Outcome State Fault Refusal := toBytesCommand .ne s

/-- `int.to_be_bytes` (R160, R167). -/
def execIntToBeBytes (s : State) : Host.Outcome State Fault Refusal := toBytesCommand .be s

/-- `int.to_le_bytes` (R161, R167). -/
def execIntToLeBytes (s : State) : Host.Outcome State Fault Refusal := toBytesCommand .le s

/-- `int.to_ne_bytes` (R162, R167). -/
def execIntToNeBytes (s : State) : Host.Outcome State Fault Refusal := toBytesCommand .ne s

/-- `uint.from_be_bytes` (R163). -/
def execUintFromBeBytes (s : State) : Host.Outcome State Fault Refusal := fromBytesCommand .be s

/-- `uint.from_le_bytes` (R164). -/
def execUintFromLeBytes (s : State) : Host.Outcome State Fault Refusal := fromBytesCommand .le s

/-- `uint.from_ne_bytes` (R165). -/
def execUintFromNeBytes (s : State) : Host.Outcome State Fault Refusal := fromBytesCommand .ne s

/-- `int.from_be_bytes` (R163, R167). -/
def execIntFromBeBytes (s : State) : Host.Outcome State Fault Refusal := fromBytesCommand .be s

/-- `int.from_le_bytes` (R164, R167). -/
def execIntFromLeBytes (s : State) : Host.Outcome State Fault Refusal := fromBytesCommand .le s

/-- `int.from_ne_bytes` (R165, R167). -/
def execIntFromNeBytes (s : State) : Host.Outcome State Fault Refusal := fromBytesCommand .ne s

end Sys2Proof.Machine
end

