-- ==== Sys2Proof/Machine/SliceDecode.lean ====
section
/-! DEFINITION. Family FROM_SLICE: variable-length slice decode (41_slice_decode.md). -/

namespace Sys2Proof.Machine

/-- The working variables of one slice decode (10_state.md R24). The chunk index and the verdict are the loop's. -/
structure Work (c : Config) where
  isNegative : Bool
  signBits : Digit c
  pad : Byte
  d : List (Digit c)
  deriving DecidableEq, Repr

/-- Steps 2 and 3: the represented sign and the initial fill (R108 to R111, R135). -/
def initWork (c : Config) (src : List Byte) (e : Endian) (f : Flavour) : Work c :=
  let neg := isNegative f (msByte src e)
  { isNegative := neg
    signBits := signBits c neg
    pad := padByte neg
    d := List.replicate c.n (signBits c neg) }

/-- `full = L >> BYTE_SHIFT` (R47). -/
def fullChunks (c : Config) (len : Nat) : Nat := len >>> c.byteShift

/-- `rem = L & (BYTES−1)` (R47). -/
def leftover (c : Config) (len : Nat) : Nat := len &&& (c.bytes - 1)

/-- The bytes of full chunk `i`, in slice order, chunk 0 least significant (R47). -/
def fullChunk (c : Config) (src : List Byte) (e : Endian) (i : Nat) : List Byte :=
  match e with
  | .be => memRead src (src.length - (i + 1) * c.bytes) c.bytes
  | .le => memRead src (i * c.bytes) c.bytes

/-- The bytes of the partial chunk, at the most-significant end (R49). -/
def partialChunk (c : Config) (src : List Byte) (e : Endian) : List Byte :=
  match e with
  | .be => memRead src 0 (leftover c src.length)
  | .le => memRead src (src.length - leftover c src.length) (leftover c src.length)

/-- The digits of the chunks in the order they are examined: the full chunks, least significant first, then the
padded partial chunk if there is one (R47 to R49, R51, R116). -/
def chunkDigits (c : Config) (src : List Byte) (e : Endian) (pad : Byte) : List (Digit c) :=
  (List.range (fullChunks c src.length)).map (fun i => bytesToDigit c (fullChunk c src e i) e)
    ++ (if leftover c src.length ≠ 0 then [padChunk c (partialChunk c src e) e pad] else [])

/-- Steps 4 and 5: examine the chunks from index `i` on; `none` is `raise Overflow` (R135, R116). -/
def examineFrom (c : Config) (f : Flavour) (wk : Work c) (i : Nat) : List (Digit c) → Option (Work c)
  | [] => some wk
  | chunk :: rest =>
    match verdict c f i chunk wk.isNegative with
    | .store => examineFrom c f { wk with d := wk.d.set i chunk } (i + 1) rest
    | .skip => examineFrom c f wk (i + 1) rest
    | .fail => none

/-- `decode_slice(src, L, ord, S)`, steps 1 to 6 (R135, R134, R136). -/
def decodeSlice (c : Config) (src : List Byte) (e : Endian) (f : Flavour) : Option (Value c) :=
  if src.length = 0 then some (zeroValue c)
  else
    let wk := initWork c src e f
    match examineFrom c f wk 0 (chunkDigits c src e wk.pad) with
    | some done => some (assemble c done.d)
    | none => none

/-- `Some(x)` is `OK` with the value, `None` is `OVERFLOW` (R143, R200). -/
def sliceResponse (c : Config) : Option (Value c) → Outputs c
  | some x => valueResult c x
  | none => failure c .overflow

/-- A slice command at the port: a length above `LMAX` is `ILLEGAL` before any data is looked at (R87, R143,
R207). -/
def sliceCommand (e : Endian) (f : Flavour) (s : State) : Host.Outcome State Fault Refusal :=
  if s.cfg.lengthOk (sliceLength s) then
    respond s (sliceResponse s.cfg (decodeSlice s.cfg (sliceOperand s) e f))
  else illegal s

/-- `int.from_be_slice` (R130). -/
def execIntFromBeSlice (s : State) : Host.Outcome State Fault Refusal := sliceCommand .be .signed s

/-- `int.from_le_slice` (R131). -/
def execIntFromLeSlice (s : State) : Host.Outcome State Fault Refusal := sliceCommand .le .signed s

/-- `uint.from_be_slice` (R132). -/
def execUintFromBeSlice (s : State) : Host.Outcome State Fault Refusal := sliceCommand .be .unsigned s

/-- `uint.from_le_slice` (R133). -/
def execUintFromLeSlice (s : State) : Host.Outcome State Fault Refusal := sliceCommand .le .unsigned s

end Sys2Proof.Machine
end

