-- ==== Sys2Proof/Machine/WholeValue.lean ====
section
/-! DEFINITION. Families TO_ORDER and FROM_ORDER: whole-value endian reinterpretation (43_whole_value.md). The two
flavours give bit-identical results (R187), and nothing fails (R189). -/

namespace Sys2Proof.Machine

/-- `swap(x)[i] = bswap(x[N−1−i])`: digit order and byte order within each digit reversed (R180). -/
def swap (c : Config) (x : Value c) : Value c :=
  assemble c ((List.range c.n).map (fun i => bswap c (digit c x (c.n - 1 - i))))

/-- `to_be` and `to_le`: the identity when the requested order is native, else `swap` (R181, R182). -/
def toOrder (c : Config) (e : Endian) (x : Value c) : Value c :=
  if c.native = e then x else swap c x

/-- `from_be` and `from_le` are the same operations as `to_be` and `to_le` (R183, R184). -/
def fromOrder (c : Config) (e : Endian) (x : Value c) : Value c := toOrder c e x

/-- A TO_ORDER command. -/
def toOrderCommand (e : Endian) (s : State) : Host.Outcome State Fault Refusal :=
  respond s (valueResult s.cfg (toOrder s.cfg e (valueOperand s)))

/-- A FROM_ORDER command. -/
def fromOrderCommand (e : Endian) (s : State) : Host.Outcome State Fault Refusal :=
  respond s (valueResult s.cfg (fromOrder s.cfg e (valueOperand s)))

/-- `uint.to_be` (R181). -/
def execUintToBe (s : State) : Host.Outcome State Fault Refusal := toOrderCommand .be s

/-- `uint.to_le` (R182). -/
def execUintToLe (s : State) : Host.Outcome State Fault Refusal := toOrderCommand .le s

/-- `uint.from_be` (R183). -/
def execUintFromBe (s : State) : Host.Outcome State Fault Refusal := fromOrderCommand .be s

/-- `uint.from_le` (R184). -/
def execUintFromLe (s : State) : Host.Outcome State Fault Refusal := fromOrderCommand .le s

/-- `int.to_be` (R181, R187). -/
def execIntToBe (s : State) : Host.Outcome State Fault Refusal := toOrderCommand .be s

/-- `int.to_le` (R182, R187). -/
def execIntToLe (s : State) : Host.Outcome State Fault Refusal := toOrderCommand .le s

/-- `int.from_be` (R183, R187). -/
def execIntFromBe (s : State) : Host.Outcome State Fault Refusal := fromOrderCommand .be s

/-- `int.from_le` (R184, R187). -/
def execIntFromLe (s : State) : Host.Outcome State Fault Refusal := fromOrderCommand .le s

end Sys2Proof.Machine
end

