-- ==== Sys2Proof/Machine/Dispatch.lean ====
section
/-! DEFINITION. One arm per command (30_encoding.md R83), each a direct call of its meaning. -/

namespace Sys2Proof.Machine

def exec (i : Instr) (s : State) : Host.Outcome State Fault Refusal :=
  match i with
  | .uintFromBeBytes => Sys2Proof.Machine.execUintFromBeBytes s
  | .uintFromLeBytes => Sys2Proof.Machine.execUintFromLeBytes s
  | .uintFromNeBytes => Sys2Proof.Machine.execUintFromNeBytes s
  | .uintToBeBytes => Sys2Proof.Machine.execUintToBeBytes s
  | .uintToLeBytes => Sys2Proof.Machine.execUintToLeBytes s
  | .uintToNeBytes => Sys2Proof.Machine.execUintToNeBytes s
  | .uintFromBeSlice => Sys2Proof.Machine.execUintFromBeSlice s
  | .uintFromLeSlice => Sys2Proof.Machine.execUintFromLeSlice s
  | .uintToBe => Sys2Proof.Machine.execUintToBe s
  | .uintToLe => Sys2Proof.Machine.execUintToLe s
  | .uintFromBe => Sys2Proof.Machine.execUintFromBe s
  | .uintFromLe => Sys2Proof.Machine.execUintFromLe s
  | .intFromBeBytes => Sys2Proof.Machine.execIntFromBeBytes s
  | .intFromLeBytes => Sys2Proof.Machine.execIntFromLeBytes s
  | .intFromNeBytes => Sys2Proof.Machine.execIntFromNeBytes s
  | .intToBeBytes => Sys2Proof.Machine.execIntToBeBytes s
  | .intToLeBytes => Sys2Proof.Machine.execIntToLeBytes s
  | .intToNeBytes => Sys2Proof.Machine.execIntToNeBytes s
  | .intFromBeSlice => Sys2Proof.Machine.execIntFromBeSlice s
  | .intFromLeSlice => Sys2Proof.Machine.execIntFromLeSlice s
  | .intToBe => Sys2Proof.Machine.execIntToBe s
  | .intToLe => Sys2Proof.Machine.execIntToLe s
  | .intFromBe => Sys2Proof.Machine.execIntFromBe s
  | .intFromLe => Sys2Proof.Machine.execIntFromLe s

end Sys2Proof.Machine
end

