-- ==== Sys2Proof/Machine/Step.lean ====
section
/-! DEFINITION. One step: the request on the input ports is decoded and its response appears on the output ports,
one complete propagation of the combinational block (10_state.md R20, R35; log 3). There is no fetch and no
program counter (R21). -/

namespace Sys2Proof.Machine

/-- Run the command on `cmd`; a reserved word gives `ILLEGAL` (30_encoding.md R80, R81). -/
def step (s : State) : Host.Outcome State Fault Refusal :=
  match decode s.inp.cmd with
  | .ok i => exec i s
  | .error _ => illegal s

/-- The requester puts the command word on `cmd`; nothing else changes (R71; log 4). -/
def State.withFetchWord (s : State) (_nbits w : Nat) : State :=
  { s with inp := { s.inp with cmd := BitVec.ofNat 6 w } }

end Sys2Proof.Machine
end

