-- ==== Sys2Proof/Machine/ClosedForm.lean ====
section
/-! DEFINITION. The closed forms the spec gives beside its algorithms: of the slice decode (41_slice_decode.md R140),
of the byte layout (20_memory.md R42) and of the swap (43_whole_value.md R180), and the response function of the
whole block made of them. Nothing here uses chunks, digits or loops; claims compare the machine with it. -/

namespace Sys2Proof.Machine

/-- The number a slice represents: `V` signed, `u` unsigned; the empty slice is 0 (R140). -/
def sliceNumber (e : Endian) (f : Flavour) (src : List Byte) : Int :=
  match f with
  | .signed => if src.length = 0 then 0 else signedRead (8 * src.length) (natOf e src)
  | .unsigned => (natOf e src : Int)

/-- The number fits the target width (R118, R140). -/
def fits (c : Config) (f : Flavour) (v : Int) : Bool :=
  match f with
  | .signed => decide (-(2 : Int) ^ (c.valBits - 1) ≤ v ∧ v ≤ (2 : Int) ^ (c.valBits - 1) - 1)
  | .unsigned => decide (0 ≤ v ∧ v ≤ (2 : Int) ^ c.valBits - 1)

/-- The slice decode in closed form: the number if it fits, else nothing (R140). -/
def closedDecode (c : Config) (src : List Byte) (e : Endian) (f : Flavour) : Option (Value c) :=
  if fits c f (sliceNumber e f src) then some (BitVec.ofInt c.valBits (sliceNumber e f src)) else none

/-- `BE(x)[j] = (u >> (8·(T−1−j))) & 0xFF` and `LE(x)[j] = (u >> (8·j)) & 0xFF` (R42). -/
def layout (t : Nat) (e : Endian) (u : Nat) : List Byte :=
  match e with
  | .be => (List.range t).map (fun j => BitVec.ofNat 8 (u >>> (8 * (t - 1 - j))))
  | .le => (List.range t).map (fun j => BitVec.ofNat 8 (u >>> (8 * j)))

/-- The bytes of the bit pattern reversed end to end (R180). -/
def reverseValue (c : Config) (x : Value c) : Value c :=
  BitVec.ofNat c.valBits (leNat (layout c.total .be x.toNat))

/-- The value reordered to a fixed order: unchanged if that order is native (R181, R182). -/
def closedOrder (c : Config) (e : Endian) (x : Value c) : Value c :=
  if c.native = e then x else reverseValue c x

/-- The response to a legal command (R82). -/
def closedCommand (c : Config) (r : Inputs c) (i : Instr) : Outputs c :=
  match i.fields with
  | (_, .fromBytes, o) =>
    valueResult c (BitVec.ofNat c.valBits (natOf (resolve c o) (lanes r.bytesIn c.total)))
  | (_, .toBytes, o) => bytesResult c (layout c.total (resolve c o) r.valIn.toNat)
  | (f, .fromSlice, o) =>
    if r.lenIn.toNat ≤ c.lmax then
      match closedDecode c (lanes r.bytesIn r.lenIn.toNat) (resolve c o) f with
      | some x => valueResult c x
      | none => failure c .overflow
    else failure c .illegal
  | (_, .toOrder, o) => valueResult c (closedOrder c (resolve c o) r.valIn)
  | (_, .fromOrder, o) => valueResult c (closedOrder c (resolve c o) r.valIn)

/-- The response of the block to a request: the outputs as a function of the inputs and the parameters alone
(10_state.md R20). -/
def closedResponse (c : Config) (r : Inputs c) : Outputs c :=
  match decode r.cmd with
  | .ok i => closedCommand c r i
  | .error _ => failure c .illegal

end Sys2Proof.Machine
end

