-- ==== Sys2Proof/Safety.lean ====
section
/-! DEFINITION. What a safe state of the block is, in the terms the claims use: its outputs keep the port contract
of 30_encoding.md R75, R76, R82 and 60_exceptions.md R201, R203. -/

namespace Sys2Proof

/-- A command of the family FROM_SLICE. -/
def Instr.isSlice (i : Instr) : Bool := decide (i.fields.2.1 = .fromSlice)

namespace Machine

/-- The command word on `cmd` is the instruction `i`. -/
def Requests (s : State) (i : Instr) : Prop := decode s.inp.cmd = .ok i

/-- The port contract. -/
structure PortContract (s : State) : Prop where
  /-- The parameters make a block (R234). -/
  parameters : s.cfg.wf = true
  /-- No partial value: without `OK` both result buses are all-zero (R75). -/
  noPartialValue : s.out.status ≠ .ok → s.out.valOut = 0 ∧ s.out.bytesOut = 0
  /-- Only a TO_BYTES command drives `bytes_out`, and then `val_out` is all-zero (R75, R82). -/
  oneResultBus : s.out.bytesOut ≠ 0 → s.out.valOut = 0 ∧ ∃ i, Requests s i ∧ i.fields.2.1 = .toBytes
  /-- `OVERFLOW` only from a slice command whose slice is longer than the value and fits the port (R76, R117, R201). -/
  overflowOnlyFromLongSlices : s.out.status = .overflow →
    (∃ i, Requests s i ∧ i.isSlice = true) ∧ s.cfg.total < sliceLength s ∧ sliceLength s ≤ s.cfg.lmax
  /-- `ILLEGAL` exactly for a reserved word and for a slice command longer than the port (R76, R203, R207). -/
  illegalExactly : s.out.status = .illegal ↔
    (∃ r, decode s.inp.cmd = .error r) ∨
      ((∃ i, Requests s i ∧ i.isSlice = true) ∧ s.cfg.lmax < sliceLength s)

end Machine

end Sys2Proof
end

