-- ==== Sys2Proof/Certificates/Slice0/Obligations.lean ====
section
/-! DEFINITION. The statements for the provers, from the numbered rules of spec/. The inputs and parameters of a state
are unchanged by every step (`State.drive` changes `out` alone), so a conclusion `exec i s = .next (s.drive o)` is
result, completion and frame in one. -/

open Sys2Proof Sys2Proof.Machine

/-! The command word. -/

/-- R83: the complete opcode map, every other word reserved. -/
def Obligations.OpcodeMapIsTheTable : Prop :=
  decode 0b000000#6 = .ok .uintFromBeBytes ∧ decode 0b100000#6 = .ok .intFromBeBytes ∧
  decode 0b000001#6 = .ok .uintFromLeBytes ∧ decode 0b100001#6 = .ok .intFromLeBytes ∧
  decode 0b000010#6 = .ok .uintFromNeBytes ∧ decode 0b100010#6 = .ok .intFromNeBytes ∧
  decode 0b000100#6 = .ok .uintToBeBytes ∧ decode 0b100100#6 = .ok .intToBeBytes ∧
  decode 0b000101#6 = .ok .uintToLeBytes ∧ decode 0b100101#6 = .ok .intToLeBytes ∧
  decode 0b000110#6 = .ok .uintToNeBytes ∧ decode 0b100110#6 = .ok .intToNeBytes ∧
  decode 0b001000#6 = .ok .uintFromBeSlice ∧ decode 0b101000#6 = .ok .intFromBeSlice ∧
  decode 0b001001#6 = .ok .uintFromLeSlice ∧ decode 0b101001#6 = .ok .intFromLeSlice ∧
  decode 0b001100#6 = .ok .uintToBe ∧ decode 0b101100#6 = .ok .intToBe ∧
  decode 0b001101#6 = .ok .uintToLe ∧ decode 0b101101#6 = .ok .intToLe ∧
  decode 0b010000#6 = .ok .uintFromBe ∧ decode 0b110000#6 = .ok .intFromBe ∧
  decode 0b010001#6 = .ok .uintFromLe ∧ decode 0b110001#6 = .ok .intFromLe ∧
  ∀ w i, decode w = .ok i → w ∈
    [0x00#6, 0x20#6, 0x01#6, 0x21#6, 0x02#6, 0x22#6, 0x04#6, 0x24#6, 0x05#6, 0x25#6, 0x06#6, 0x26#6,
     0x08#6, 0x28#6, 0x09#6, 0x29#6, 0x0C#6, 0x2C#6, 0x0D#6, 0x2D#6, 0x10#6, 0x30#6, 0x11#6, 0x31#6]

/-- Decode and encode agree in both directions, and the fields stand where CMD6 puts them (30_encoding.md
section 2). -/
def Obligations.DecodeAndEncodeAgree : Prop :=
  ∀ i w, (decode w = .ok i ↔ w = encode i) ∧
    (decode w = .ok i → w.extractLsb' 5 1 = i.fields.1.bit ∧ w.extractLsb' 2 3 = i.fields.2.1.bits ∧
      w.extractLsb' 0 2 = i.fields.2.2.bits)

/-- R80: the 40 reserved words, and what each does whatever the operands. -/
def Obligations.ReservedWordsGiveIllegal : Prop :=
  let perFlavour : List CmdWord :=
    [0x03#6, 0x07#6, 0x0B#6, 0x0F#6, 0x13#6, 0x0A#6, 0x0E#6, 0x12#6, 0x14#6, 0x15#6, 0x16#6, 0x17#6, 0x18#6,
     0x19#6, 0x1A#6, 0x1B#6, 0x1C#6, 0x1D#6, 0x1E#6, 0x1F#6]
  let reserved := perFlavour ++ perFlavour.map (· + 0x20#6)
  reserved.Nodup ∧ reserved.length = 40 ∧
  (∀ w, (∃ r, decode w = .error r) ↔ w ∈ reserved) ∧
  ∀ s : State, s.cfg.wf = true → s.inp.cmd ∈ reserved →
    step s = .next (s.drive { valOut := 0, bytesOut := 0, status := .illegal })

/-- A step runs the decoded command, and nothing is added around it: no fetch, no program counter. -/
def Obligations.StepRunsTheDecodedCommand : Prop :=
  ∀ s i, decode s.inp.cmd = .ok i → step s = exec i s

/-- The command word the requester places is the one the next step runs, and no other port changes (log 4). -/
def Obligations.PresentedWordIsRunNext : Prop :=
  ∀ (s : State) nbits w i, decodeTableWord nbits w = some i →
    step (s.withFetchWord nbits w) = exec i (s.withFetchWord nbits w) ∧
    (s.withFetchWord nbits w).inp = { s.inp with cmd := encode i } ∧
    (s.withFetchWord nbits w).out = s.out

/-! The whole machine. -/

/-- Every command leaves the parameters and every input port as they are: only the output ports follow. -/
def Obligations.OperationsDriveOnlyTheOutputs : Prop :=
  (∀ i s t, exec i s = .next t → ∃ o : Outputs s.cfg, t = s.drive o) ∧
  (∀ s t, step s = .next t → ∃ o : Outputs s.cfg, t = s.drive o)

/-- Every one of the 24 commands completes, whatever is on the ports; outside FROM_SLICE the status is `OK`; a slice
command that the port can carry is `OK` or `OVERFLOW`. -/
def Obligations.EveryCommandCompletes : Prop :=
  ∀ i (s : State), s.cfg.wf = true → ∃ o : Outputs s.cfg, exec i s = .next (s.drive o) ∧
    (i.isSlice = false → o.status = .ok) ∧
    (i.isSlice = true → sliceLength s ≤ s.cfg.lmax → o.status = .ok ∨ o.status = .overflow)

/-- Parameters that make no block are refused, whatever is on the ports: `N = 0` or `LMAX < N·BYTES`. That the
refusal is of the whole step is the model's choice (log 10). -/
def Obligations.ParametersThatMakeNoBlockAreRefused : Prop :=
  ∀ s : State, (s.cfg.n = 0 ∨ s.cfg.lmax < s.cfg.n * s.cfg.bytes) →
    step s = .refused .notAnInstance ∧ ∀ i, exec i s = .refused .notAnInstance

/-- The reset state keeps the port contract, and its outputs already follow its inputs. The parameters and input
levels of the reset state are the model's choice, and its settled outputs are the model's reading (logs 1, 2, 3). -/
def Obligations.ResetIsSettled : Prop :=
  PortContract State.reset ∧ step State.reset = .next State.reset

/-- Every step keeps the port contract. -/
def Obligations.EveryStepKeepsThePortContract : Prop :=
  ∀ s t, PortContract s → step s = .next t → PortContract t

/-- Every step computes the closed forms: after one step the outputs are the response function of the inputs. -/
def Obligations.EveryStepComputesTheClosedForms : Prop :=
  ∀ s : State, s.cfg.wf = true → step s = .next (s.drive (closedResponse s.cfg s.inp))

/-- The outputs do not depend on any earlier result, and repeating a step changes nothing. -/
def Obligations.StepsForgetEarlierResults : Prop :=
  (∀ (c : Config) (r : Inputs c) (o o' : Outputs c), step ⟨c, r, o⟩ = step ⟨c, r, o'⟩) ∧
  (∀ s t, step s = .next t → step t = .next t)

/-- Ports and lanes a family does not read never influence an output. -/
def Obligations.IgnoredPortsDoNotMatter : Prop :=
  ∀ i (c : Config) (r r' : Inputs c) (o o' : Outputs c), c.wf = true →
    (match i.fields.2.1 with
      | .fromBytes => ∀ j, j < c.total → byteAt r.bytesIn j = byteAt r'.bytesIn j
      | .toBytes => r.valIn = r'.valIn
      | .fromSlice => r.lenIn = r'.lenIn ∧ ∀ j, j < r.lenIn.toNat → byteAt r.bytesIn j = byteAt r'.bytesIn j
      | .toOrder => r.valIn = r'.valIn
      | .fromOrder => r.valIn = r'.valIn) →
    ∃ out : Outputs c, exec i ⟨c, r, o⟩ = .next ⟨c, r, out⟩ ∧ exec i ⟨c, r', o'⟩ = .next ⟨c, r', out⟩

/-- `native_big` has no effect on a command that is neither a native-order array command nor a whole-value one: two
blocks that differ in it alone, given the same request, answer the same. That the operations meant are the six the
spec lists, not eight, is log 9. -/
def Obligations.NativeOrderMattersOnlyWhereItIsRead : Prop :=
  ∀ i (s s' : State), i.fields.2.2 ≠ .ne → i.fields.2.1 ≠ .toOrder → i.fields.2.1 ≠ .fromOrder → s.cfg.wf = true →
    s'.cfg.k = s.cfg.k → s'.cfg.n = s.cfg.n → s'.cfg.lmax = s.cfg.lmax →
    s'.inp.valIn.toNat = s.inp.valIn.toNat → s'.inp.bytesIn.toNat = s.inp.bytesIn.toNat →
    s'.inp.lenIn.toNat = s.inp.lenIn.toNat →
    ∃ (o : Outputs s.cfg) (o' : Outputs s'.cfg), exec i s = .next (s.drive o) ∧ exec i s' = .next (s'.drive o') ∧
      o'.valOut.toNat = o.valOut.toNat ∧ o'.bytesOut.toNat = o.bytesOut.toNat ∧ o'.status = o.status

/-- Outside FROM_SLICE the two flavours of a command give bit-identical outputs. -/
def Obligations.FlavourMattersOnlyForSlices : Prop :=
  ∀ i i' (s : State), i.fields.2 = i'.fields.2 → i.isSlice = false → exec i s = exec i' s

/-- R87: a slice longer than the port, and `len_in` everywhere else. -/
def Obligations.SliceLengthAboveThePortIsIllegal : Prop :=
  (∀ c : Config, (∃ l : BitVec c.lenW, c.lmax < l.toNat) ↔ ¬ ∃ m, c.lmax + 1 = 2 ^ m) ∧
  (∀ i (s : State), s.cfg.wf = true → i.isSlice = true → s.cfg.lmax < sliceLength s →
    exec i s = .next (s.drive { valOut := 0, bytesOut := 0, status := .illegal })) ∧
  (∀ i (c : Config) (r : Inputs c) (o : Outputs c) (l : BitVec c.lenW), c.wf = true → i.isSlice = false →
    ∃ out : Outputs c, exec i ⟨c, r, o⟩ = .next ⟨c, r, out⟩ ∧ out.status ≠ .illegal ∧
      exec i ⟨c, { r with lenIn := l }, o⟩ = .next ⟨c, { r with lenIn := l }, out⟩)

/-- `OVERFLOW` is raised by slice commands only, exactly when the slice's number does not fit, and it records nothing:
both result buses are zero. -/
def Obligations.OverflowExactlyWhenTheNumberDoesNotFit : Prop :=
  ∀ i (s : State), s.cfg.wf = true →
    (exec i s = .next (s.drive { valOut := 0, bytesOut := 0, status := .overflow }) ↔
      i.isSlice = true ∧ sliceLength s ≤ s.cfg.lmax ∧
        fits s.cfg i.fields.1 (sliceNumber (resolve s.cfg i.fields.2.2) i.fields.1 (sliceOperand s)) = false) ∧
    ∀ t, exec i s = .next t → t.out.status = .overflow → t.out.valOut = 0 ∧ t.out.bytesOut = 0

/-! The sub-units (40_digit_units.md). -/

/-- R100. -/
def Obligations.DigitToBytesLayout : Prop :=
  (∀ (c : Config) (d : Digit c), (∀ o, (digitToBytesOrd c d o).length = c.bytes) ∧
    digitToBytesOrd c d .ne = (match c.native with
      | .be => digitToBytesOrd c d .be
      | .le => digitToBytesOrd c d .le) ∧
    ∀ k, k < c.bytes →
      (digitToBytesOrd c d .be).getD k 0 = BitVec.ofNat 8 (d.toNat >>> (8 * (c.bytes - 1 - k))) ∧
      (digitToBytesOrd c d .be).getD k 0 = d.extractLsb' (c.w - 8 - 8 * k) 8 ∧
      (digitToBytesOrd c d .le).getD k 0 = BitVec.ofNat 8 (d.toNat >>> (8 * k)) ∧
      (digitToBytesOrd c d .le).getD k 0 = d.extractLsb' (8 * k) 8) ∧
  ∀ n native lmax,
    digitToBytesOrd ⟨2, n, native, lmax⟩ 0x12345678#32 .be = [0x12#8, 0x34#8, 0x56#8, 0x78#8] ∧
    digitToBytesOrd ⟨2, n, native, lmax⟩ 0x12345678#32 .le = [0x78#8, 0x56#8, 0x34#8, 0x12#8]

/-- R101, which the spec marks derived from R100. -/
def Obligations.DigitToBytesLaws : Prop :=
  ∀ (c : Config) (d : Digit c),
    digitToBytesOrd c d .le = (digitToBytesOrd c d .be).reverse ∧
    beNat (digitToBytesOrd c d .be) = d.toNat ∧ leNat (digitToBytesOrd c d .le) = d.toNat ∧
    (c.w = 8 → ∀ o, digitToBytesOrd c d o = [BitVec.ofNat 8 d.toNat]) ∧
    (∀ o, digitToBytesOrd c (zeroDigit c) o = List.replicate c.bytes 0x00#8) ∧
    (∀ o, digitToBytesOrd c (allOnesDigit c) o = List.replicate c.bytes 0xFF#8)

/-- R104. -/
def Obligations.BytesToDigitReadsTheNumber : Prop :=
  (∀ (c : Config) (b : List Byte), b.length = c.bytes →
    (bytesToDigitOrd c b .be).toNat = beNat b ∧ (bytesToDigitOrd c b .le).toNat = leNat b ∧
    bytesToDigitOrd c b .ne = (match c.native with
      | .be => bytesToDigitOrd c b .be
      | .le => bytesToDigitOrd c b .le) ∧
    beNat b < 2 ^ c.w ∧ leNat b < 2 ^ c.w) ∧
  ∀ n native lmax,
    bytesToDigitOrd ⟨1, n, native, lmax⟩ [0xFF#8, 0xFE#8] .be = 0xFFFE#16 ∧
    bytesToDigitOrd ⟨1, n, native, lmax⟩ [0xFF#8, 0xFE#8] .le = 0xFEFF#16

/-- R105, which the spec marks derived from R100, R104. -/
def Obligations.DigitConversionsAreInverse : Prop :=
  ∀ (c : Config) (d : Digit c),
    (∀ o, bytesToDigitOrd c (digitToBytesOrd c d o) o = d) ∧
    (∀ o (b : List Byte), b.length = c.bytes → digitToBytesOrd c (bytesToDigitOrd c b o) o = b) ∧
    bytesToDigitOrd c (digitToBytesOrd c d .be) .le = bswap c d ∧
    (∀ k, k < c.bytes → byteAt (bswap c d) k = byteAt d (c.bytes - 1 - k)) ∧
    bswap c (bswap c d) = d ∧ (c.w = 8 → bswap c d = d)

/-- R54, R108, R109; and R110, whose last sentence (`sign_bits` is `BYTES` copies of `pad`) the spec marks derived. -/
def Obligations.SignExtensionLogic : Prop :=
  (∀ src : List Byte, src ≠ [] →
    src[0]? = some (msByte src .be) ∧ src[src.length - 1]? = some (msByte src .le)) ∧
  (∀ b : Byte, (isNegative .signed b = true ↔ 0x80 ≤ b.toNat) ∧ isNegative .signed b = b.getLsbD 7 ∧
    isNegative .unsigned b = false) ∧
  isNegative .signed 0x7F#8 = false ∧ isNegative .signed 0x80#8 = true ∧ isNegative .signed 0xFE#8 = true ∧
  isNegative .unsigned 0xFE#8 = false ∧
  padByte true = 0xFF#8 ∧ padByte false = 0x00#8 ∧
  ∀ c : Config, (signBits c true).toNat = 2 ^ c.w - 1 ∧ (signBits c false).toNat = 0 ∧
    ∀ neg, (signBits c neg).toNat = beNat (List.replicate c.bytes (padByte neg))

/-- R112. -/
def Obligations.PartialChunkIsPadded : Prop :=
  (∀ (c : Config) (part : List Byte) (neg : Bool), 1 ≤ part.length → part.length < c.bytes →
    padChunk c part .be (padByte neg)
      = bytesToDigit c (List.replicate (c.bytes - part.length) (padByte neg) ++ part) .be ∧
    padChunk c part .le (padByte neg)
      = bytesToDigit c (part ++ List.replicate (c.bytes - part.length) (padByte neg)) .le ∧
    ∀ e, natOf e part < 2 ^ (8 * part.length) ∧
      (padChunk c part e (padByte neg)).toNat
        = natOf e part + (if neg then 2 ^ c.w - 2 ^ (8 * part.length) else 0)) ∧
  (∀ (c : Config) len, c.bytes = 1 → leftover c len = 0) ∧
  ∀ n native lmax,
    padChunk ⟨2, n, native, lmax⟩ [0xFE#8] .be (padByte true) = 0xFFFFFFFE#32 ∧
    padChunk ⟨2, n, native, lmax⟩ [0x01#8, 0x02#8, 0x03#8] .be (padByte false) = 0x00010203#32

/-- R114: the verdict function, signed flavour. -/
def Obligations.SignedVerdict : Prop :=
  ∀ (c : Config) (i : Nat) (d : Digit c) (neg : Bool), 1 ≤ c.n →
    (i < c.n - 1 → verdict c .signed i d neg = .store) ∧
    (i = c.n - 1 → d.getLsbD (c.w - 1) = neg → verdict c .signed i d neg = .store) ∧
    (i = c.n - 1 → d.getLsbD (c.w - 1) ≠ neg → verdict c .signed i d neg = .fail) ∧
    (c.n ≤ i → d = signBits c neg → verdict c .signed i d neg = .skip) ∧
    (c.n ≤ i → d ≠ signBits c neg → verdict c .signed i d neg = .fail) ∧
    (c.n = 1 → ¬ i < c.n - 1)

/-- R115: the verdict function, unsigned flavour, where `is_negative` is false. -/
def Obligations.UnsignedVerdict : Prop :=
  ∀ (c : Config) (i : Nat) (d : Digit c),
    (i < c.n → verdict c .unsigned i d false = .store) ∧
    (c.n ≤ i → d = zeroDigit c → verdict c .unsigned i d false = .skip) ∧
    (c.n ≤ i → d ≠ zeroDigit c → verdict c .unsigned i d false = .fail)

/-- The chunks by position: byte `k` of chunk `i` is the slice's byte number `i·BYTES+k` from its least-significant
end, or the pad byte beyond its most-significant end; there are `ceil(L/BYTES)` chunks (20_memory.md section 3). -/
def Obligations.ChunksCutTheSliceFromItsLeastSignificantEnd : Prop :=
  ∀ (c : Config) (src : List Byte) (e : Endian) (pad : Byte),
    (chunkDigits c src e pad).length = (src.length + (c.bytes - 1)) / c.bytes ∧
    ∀ i d k, (chunkDigits c src e pad)[i]? = some d → k < c.bytes →
      byteAt d k =
        if i * c.bytes + k < src.length then
          (match e with
            | .be => src.getD (src.length - 1 - (i * c.bytes + k)) 0
            | .le => src.getD (i * c.bytes + k) 0)
        else pad

/-! Slice decode (41_slice_decode.md). -/

/-- R140, which the spec marks derived from R135 and R113, R117, R118: the decode is the number the slice represents if
it fits the target width, else nothing. -/
def Obligations.SliceDecodeIsTheNumberIfItFits : Prop :=
  ∀ (c : Config) (src : List Byte) (e : Endian), 1 ≤ c.n →
    (let v : Int := if src.length = 0 then 0 else signedRead (8 * src.length) (natOf e src)
     decodeSlice c src e .signed =
      if -(2 : Int) ^ (c.valBits - 1) ≤ v ∧ v ≤ (2 : Int) ^ (c.valBits - 1) - 1 then
        some (BitVec.ofInt c.valBits v) else none) ∧
    decodeSlice c src e .unsigned =
      if natOf e src ≤ 2 ^ c.valBits - 1 then some (BitVec.ofNat c.valBits (natOf e src)) else none

/-- R113, which the spec marks derived from R108 to R112 and R49: within capacity the value read from the result is the
slice's own number. -/
def Obligations.SignExtensionKeepsTheNumber : Prop :=
  ∀ (c : Config) (src : List Byte) (e : Endian) (f : Flavour), 1 ≤ c.n → src ≠ [] →
    (chunkDigits c src e (padByte (isNegative f (msByte src e)))).length ≤ c.n →
    ∃ x, decodeSlice c src e f = some x ∧
      (f = .signed → x.toInt = signedRead (8 * src.length) (natOf e src)) ∧
      (f = .unsigned → x.toNat = natOf e src)

/-- R117, which the spec marks derived from R114, R115, R51: no chunk of a slice within capacity can fail. -/
def Obligations.NoFailureWithinCapacity : Prop :=
  ∀ (c : Config) (src : List Byte) (e : Endian) (f : Flavour), 1 ≤ c.n →
    let neg := isNegative f (msByte src e)
    let chunks := chunkDigits c src e (padByte neg)
    (chunks.length ≤ c.n ↔ src.length ≤ c.n * c.bytes) ∧
    (src ≠ [] → src.length ≤ c.n * c.bytes →
      (∀ d, f = .signed → chunks[c.n - 1]? = some d → chunks.length = c.n ∧ digitSign c d = neg) ∧
      (∀ i d, chunks[i]? = some d → verdict c f i d neg ≠ .fail)) ∧
    (src.length ≤ c.n * c.bytes → ∃ x, decodeSlice c src e f = some x) ∧
    (decodeSlice c src e f = none → c.n * c.bytes < src.length)

/-- R134, R32: the empty slice is the canonical zero, for every `N`, in both orders and flavours. -/
def Obligations.EmptySliceIsZero : Prop :=
  ∀ (c : Config) (e : Endian) (f : Flavour), ∃ x : Value c, decodeSlice c [] e f = some x ∧
    x.toNat = 0 ∧ x.toInt = 0 ∧ ∀ i, i < c.n → digit c x i = zeroDigit c

/-- R137, whose cases (b), (c), (d) the spec marks derived from R117: the four length cases. -/
def Obligations.FourLengthCases : Prop :=
  ∀ (c : Config) (src : List Byte) (e : Endian) (f : Flavour), 1 ≤ c.n →
    let neg := isNegative f (msByte src e)
    let chunks := chunkDigits c src e (padByte neg)
    (src.length = 0 → decodeSlice c src e f = some 0) ∧
    (0 < src.length → src.length < c.n * c.bytes → ∃ x, decodeSlice c src e f = some x ∧
      (∀ i d, chunks[i]? = some d → digit c x i = d) ∧
      (∀ i, chunks.length ≤ i → i < c.n → digit c x i = signBits c neg)) ∧
    (src.length = c.n * c.bytes → ∃ x, decodeSlice c src e f = some x ∧ x.toNat = natOf e src) ∧
    (c.n * c.bytes < src.length →
      ((∃ x, decodeSlice c src e f = some x) ↔
        (∀ j, j < src.length - c.n * c.bytes →
          src.getD (match e with
            | .be => j
            | .le => c.n * c.bytes + j) 0 = padByte neg) ∧
        (f = .signed → ∃ d, chunks[c.n - 1]? = some d ∧ d.getLsbD (c.w - 1) = neg)))

/-- R138: slice and array decode agree on exact-length slices. -/
def Obligations.ExactSliceDecodesAsTheArray : Prop :=
  ∀ (c : Config) (a : List Byte) (e : Endian) (f : Flavour), 1 ≤ c.n → a.length = c.n * c.bytes →
    decodeSlice c a e f = some (fromBytes c a e)

/-- R139: mirror symmetry, the failures included. -/
def Obligations.SliceDecodeIsMirrorSymmetric : Prop :=
  ∀ (c : Config) (b : List Byte) (f : Flavour), decodeSlice c b .be f = decodeSlice c b.reverse .le f

/-- R141, which the spec marks derived from R140: redundant sign bytes. -/
def Obligations.RedundantSignBytesAreAccepted : Prop :=
  ∀ c : Config, 1 ≤ c.n →
    (∀ (src : List Byte) (f : Flavour) (m : Nat), src ≠ [] →
      decodeSlice c (List.replicate m (padByte (isNegative f (msByte src .be))) ++ src) .be f
        = decodeSlice c src .be f ∧
      decodeSlice c (src ++ List.replicate m (padByte (isNegative f (msByte src .le)))) .le f
        = decodeSlice c src .le f) ∧
    ∀ e, decodeSlice c [] e .signed = some 0 ∧
      ∃ x, decodeSlice c [0xFF#8] e .signed = some x ∧ x.toInt = -1

/-- R144, which the spec marks derived from R140: the two flavours on the same bytes. -/
def Obligations.SignedAndUnsignedOnTheSameBytes : Prop :=
  ∀ (c : Config) (src : List Byte) (e : Endian), 1 ≤ c.n → src ≠ [] →
    ((msByte src e).toNat < 0x80 →
      sliceNumber e .signed src = natOf e src ∧ sliceNumber e .unsigned src = natOf e src ∧
      ((∃ x, decodeSlice c src e .signed = some x) ↔ natOf e src < 2 ^ (c.valBits - 1)) ∧
      ((∃ x, decodeSlice c src e .unsigned = some x) ↔ natOf e src < 2 ^ c.valBits) ∧
      ∀ x y, decodeSlice c src e .signed = some x → decodeSlice c src e .unsigned = some y → x = y) ∧
    (0x80 ≤ (msByte src e).toNat →
      sliceNumber e .signed src < 0 ∧ 2 ^ (8 * src.length - 1) ≤ natOf e src ∧
      (src.length < c.n * c.bytes → ∃ x y, decodeSlice c src e .signed = some x ∧
        decodeSlice c src e .unsigned = some y ∧ x ≠ y ∧ x.toInt < 0 ∧ 2 ^ (8 * src.length - 1) ≤ y.toNat ∧
        ∀ j, 8 * src.length ≤ j → j < c.valBits → x.getLsbD j = true ∧ y.getLsbD j = false) ∧
      (src.length = c.n * c.bytes → ∃ x, decodeSlice c src e .signed = some x ∧
        decodeSlice c src e .unsigned = some x))

/-- R130: `int.from_be_slice`. -/
def Obligations.IntFromBeSliceResult : Prop :=
  decode 0x28#6 = .ok .intFromBeSlice ∧
  (∀ s : State, s.cfg.wf = true → sliceLength s ≤ s.cfg.lmax →
    let src := sliceOperand s
    let neg := isNegative .signed (msByte src .be)
    let chunks := chunkDigits s.cfg src .be (padByte neg)
    (∀ x, decodeSlice s.cfg src .be .signed = some x →
      exec .intFromBeSlice s = .next (s.drive { valOut := x, bytesOut := 0, status := .ok }) ∧
      x.toInt = sliceNumber .be .signed src) ∧
    (decodeSlice s.cfg src .be .signed = none →
      exec .intFromBeSlice s = .next (s.drive { valOut := 0, bytesOut := 0, status := .overflow })) ∧
    (decodeSlice s.cfg src .be .signed = none ↔
      s.cfg.n * s.cfg.bytes < sliceLength s ∧
        ((∃ i d, s.cfg.n ≤ i ∧ chunks[i]? = some d ∧ d ≠ signBits s.cfg neg) ∨
          (∃ d, chunks[s.cfg.n - 1]? = some d ∧ d.getLsbD (s.cfg.w - 1) ≠ neg)))) ∧
  (∀ c : Config, 1 ≤ c.n →
    decodeSlice c [] .be .signed = some 0 ∧
    (∃ x, decodeSlice c [0x80#8] .be .signed = some x ∧ x.toInt = -128 ∧
      (x.toInt = -(2 : Int) ^ (c.valBits - 1) ↔ c.valBits = 8)) ∧
    (16 ≤ c.valBits → ∃ x, decodeSlice c [0x00#8, 0x80#8] .be .signed = some x ∧ x.toInt = 128) ∧
    (∀ a : List Byte, a.length = c.n * c.bytes → 0x80 ≤ (a.getD 0 0).toNat →
      (∃ x, decodeSlice c a .be .signed = some x ∧ x.toInt < 0) ∧
      decodeSlice c (0x00#8 :: a) .be .signed = none)) ∧
  ∀ native, decodeSlice ⟨0, 2, native, 4⟩ [0x01#8, 0xFF#8, 0xFE#8] .be .signed = none

/-- R131: `int.from_le_slice`. -/
def Obligations.IntFromLeSliceResult : Prop :=
  decode 0x29#6 = .ok .intFromLeSlice ∧
  (∀ s : State, s.cfg.wf = true → sliceLength s ≤ s.cfg.lmax →
    let src := sliceOperand s
    let neg := isNegative .signed (msByte src .le)
    let chunks := chunkDigits s.cfg src .le (padByte neg)
    (∀ x, decodeSlice s.cfg src .le .signed = some x →
      exec .intFromLeSlice s = .next (s.drive { valOut := x, bytesOut := 0, status := .ok }) ∧
      x.toInt = sliceNumber .le .signed src) ∧
    (decodeSlice s.cfg src .le .signed = none →
      exec .intFromLeSlice s = .next (s.drive { valOut := 0, bytesOut := 0, status := .overflow })) ∧
    decodeSlice s.cfg src .le .signed = decodeSlice s.cfg src.reverse .be .signed ∧
    (decodeSlice s.cfg src .le .signed = none ↔
      s.cfg.n * s.cfg.bytes < sliceLength s ∧
        ((∃ i d, s.cfg.n ≤ i ∧ chunks[i]? = some d ∧ d ≠ signBits s.cfg neg) ∨
          (∃ d, chunks[s.cfg.n - 1]? = some d ∧ d.getLsbD (s.cfg.w - 1) ≠ neg)))) ∧
  ∀ native, decodeSlice ⟨0, 2, native, 4⟩ [0xFE#8, 0xFF#8, 0xFF#8] .le .signed = some 0xFFFE#16

/-- R132: `uint.from_be_slice`. -/
def Obligations.UintFromBeSliceResult : Prop :=
  decode 0x08#6 = .ok .uintFromBeSlice ∧
  (∀ s : State, s.cfg.wf = true → sliceLength s ≤ s.cfg.lmax →
    let src := sliceOperand s
    (∀ x, decodeSlice s.cfg src .be .unsigned = some x →
      exec .uintFromBeSlice s = .next (s.drive { valOut := x, bytesOut := 0, status := .ok }) ∧
      x.toNat = beNat src) ∧
    (decodeSlice s.cfg src .be .unsigned = none →
      exec .uintFromBeSlice s = .next (s.drive { valOut := 0, bytesOut := 0, status := .overflow })) ∧
    (decodeSlice s.cfg src .be .unsigned = none ↔
      s.cfg.n * s.cfg.bytes < sliceLength s ∧
        ∃ j, j < sliceLength s - s.cfg.n * s.cfg.bytes ∧ src.getD j 0 ≠ 0x00#8)) ∧
  (∀ c : Config, 1 ≤ c.n →
    (∃ x, decodeSlice c [0xFE#8] .be .unsigned = some x ∧ x.toNat = 254) ∧
    (∀ a : List Byte, a.length = c.n * c.bytes → ∃ x, decodeSlice c a .be .unsigned = some x) ∧
    ∀ (src : List Byte) (m : Nat),
      decodeSlice c (List.replicate m 0x00#8 ++ src) .be .unsigned = decodeSlice c src .be .unsigned) ∧
  ∀ native,
    decodeSlice ⟨0, 2, native, 4⟩ [0x00#8, 0xFF#8, 0xFE#8] .be .unsigned = some 0xFFFE#16 ∧
    decodeSlice ⟨0, 2, native, 4⟩ [0x00#8, 0xFF#8, 0xFE#8] .be .signed = none

/-- R133: `uint.from_le_slice`. -/
def Obligations.UintFromLeSliceResult : Prop :=
  decode 0x09#6 = .ok .uintFromLeSlice ∧
  (∀ s : State, s.cfg.wf = true → sliceLength s ≤ s.cfg.lmax →
    let src := sliceOperand s
    (∀ x, decodeSlice s.cfg src .le .unsigned = some x →
      exec .uintFromLeSlice s = .next (s.drive { valOut := x, bytesOut := 0, status := .ok }) ∧
      x.toNat = leNat src) ∧
    (decodeSlice s.cfg src .le .unsigned = none →
      exec .uintFromLeSlice s = .next (s.drive { valOut := 0, bytesOut := 0, status := .overflow })) ∧
    decodeSlice s.cfg src .le .unsigned = decodeSlice s.cfg src.reverse .be .unsigned ∧
    (decodeSlice s.cfg src .le .unsigned = none ↔
      s.cfg.n * s.cfg.bytes < sliceLength s ∧
        ∃ j, s.cfg.n * s.cfg.bytes ≤ j ∧ j < sliceLength s ∧ src.getD j 0 ≠ 0x00#8)) ∧
  (∀ c : Config, 1 ≤ c.n →
    (∃ x, decodeSlice c [0xFE#8] .le .unsigned = some x ∧ x.toNat = 254) ∧
    (∀ a : List Byte, a.length = c.n * c.bytes → ∃ x, decodeSlice c a .le .unsigned = some x) ∧
    ∀ (src : List Byte) (m : Nat),
      decodeSlice c (src ++ List.replicate m 0x00#8) .le .unsigned = decodeSlice c src .le .unsigned) ∧
  ∀ native,
    decodeSlice ⟨1, 1, native, 4⟩ [0x34#8, 0x12#8, 0x00#8] .le .unsigned = some 0x1234#16 ∧
    decodeSlice ⟨1, 1, native, 4⟩ [0x34#8, 0x12#8, 0x01#8] .le .unsigned = none

/-! Exact-length arrays (42_exact_array.md). -/

/-- R160: `to_be_bytes`. -/
def Obligations.ToBeBytesResult : Prop :=
  decode 0x04#6 = .ok .uintToBeBytes ∧ decode 0x24#6 = .ok .intToBeBytes ∧
  (∀ i (s : State), (i = .uintToBeBytes ∨ i = .intToBeBytes) → s.cfg.wf = true →
    let c := s.cfg
    let x := s.inp.valIn
    ∃ dst : List Byte,
      exec i s = .next (s.drive { valOut := 0, bytesOut := packBytes c dst, status := .ok }) ∧
      dst.length = c.total ∧
      (∀ j, j < c.total → byteAt (packBytes c dst) j = dst.getD j 0 ∧
        dst.getD j 0 = BitVec.ofNat 8 (x.toNat >>> (8 * (c.total - 1 - j)))) ∧
      (∀ m, m < c.n → memRead dst ((c.n - 1 - m) * c.bytes) c.bytes = digitToBytes c (digit c x m) .be) ∧
      (x = 0 → dst = List.replicate c.total 0x00#8) ∧
      (x.toInt = -1 → dst = List.replicate c.total 0xFF#8) ∧
      (x.toInt = -(2 : Int) ^ (c.valBits - 1) → dst = 0x80#8 :: List.replicate (c.total - 1) 0x00#8) ∧
      (dst.getD 0 0).getLsbD 7 = x.getLsbD (c.valBits - 1)) ∧
  ∀ native lmax, toBytes ⟨1, 2, native, lmax⟩ 0x12345678#32 .be = [0x12#8, 0x34#8, 0x56#8, 0x78#8]

/-- R161: `to_le_bytes`. -/
def Obligations.ToLeBytesResult : Prop :=
  decode 0x05#6 = .ok .uintToLeBytes ∧ decode 0x25#6 = .ok .intToLeBytes ∧
  (∀ i (s : State), (i = .uintToLeBytes ∨ i = .intToLeBytes) → s.cfg.wf = true →
    let c := s.cfg
    let x := s.inp.valIn
    ∃ dst : List Byte,
      exec i s = .next (s.drive { valOut := 0, bytesOut := packBytes c dst, status := .ok }) ∧
      dst.length = c.total ∧
      (∀ j, j < c.total → byteAt (packBytes c dst) j = dst.getD j 0 ∧
        dst.getD j 0 = BitVec.ofNat 8 (x.toNat >>> (8 * j))) ∧
      (∀ m, m < c.n → memRead dst (m * c.bytes) c.bytes = digitToBytes c (digit c x m) .le) ∧
      (x = 0 → dst = List.replicate c.total 0x00#8) ∧
      (x.toInt = -1 → dst = List.replicate c.total 0xFF#8) ∧
      (x.toInt = -(2 : Int) ^ (c.valBits - 1) → dst = List.replicate (c.total - 1) 0x00#8 ++ [0x80#8]) ∧
      (dst.getD (c.total - 1) 0).getLsbD 7 = x.getLsbD (c.valBits - 1)) ∧
  ∀ native lmax, toBytes ⟨1, 2, native, lmax⟩ 0x12345678#32 .le = [0x78#8, 0x56#8, 0x34#8, 0x12#8]

/-- `to_ne_bytes` is the array of the fixed order that is native, the reversal of the other one (log 6). -/
def Obligations.ToNeBytesResult : Prop :=
  decode 0x06#6 = .ok .uintToNeBytes ∧ decode 0x26#6 = .ok .intToNeBytes ∧
  ∀ i (s : State), (i = .uintToNeBytes ∨ i = .intToNeBytes) → s.cfg.wf = true →
    ∃ dst : List Byte,
      exec i s = .next (s.drive { valOut := 0, bytesOut := packBytes s.cfg dst, status := .ok }) ∧
      (s.cfg.native = .be → dst = toBytes s.cfg s.inp.valIn .be ∧
        dst = (toBytes s.cfg s.inp.valIn .le).reverse) ∧
      (s.cfg.native = .le → dst = toBytes s.cfg s.inp.valIn .le ∧
        dst = (toBytes s.cfg s.inp.valIn .be).reverse) ∧
      (toBytes s.cfg s.inp.valIn .be = (toBytes s.cfg s.inp.valIn .be).reverse →
        dst = toBytes s.cfg s.inp.valIn .be)

/-- R163: `from_be_bytes`. -/
def Obligations.FromBeBytesResult : Prop :=
  decode 0x00#6 = .ok .uintFromBeBytes ∧ decode 0x20#6 = .ok .intFromBeBytes ∧
  (∀ i (s : State), (i = .uintFromBeBytes ∨ i = .intFromBeBytes) → s.cfg.wf = true →
    let c := s.cfg
    let a := (List.range c.total).map (fun j => byteAt s.inp.bytesIn j)
    ∃ x : Value c,
      exec i s = .next (s.drive { valOut := x, bytesOut := 0, status := .ok }) ∧
      x.toNat = beNat a ∧
      (∀ m, m < c.n → digit c x m = bytesToDigit c (memRead a ((c.n - 1 - m) * c.bytes) c.bytes) .be) ∧
      (x.toInt < 0 ↔ 0x80 ≤ (byteAt s.inp.bytesIn 0).toNat)) ∧
  ∀ native lmax, fromBytes ⟨1, 2, native, lmax⟩ [0xFF#8, 0xFF#8, 0xFF#8, 0xFE#8] .be = 0xFFFFFFFE#32

/-- R164: `from_le_bytes`. -/
def Obligations.FromLeBytesResult : Prop :=
  decode 0x01#6 = .ok .uintFromLeBytes ∧ decode 0x21#6 = .ok .intFromLeBytes ∧
  (∀ i (s : State), (i = .uintFromLeBytes ∨ i = .intFromLeBytes) → s.cfg.wf = true →
    let c := s.cfg
    let a := (List.range c.total).map (fun j => byteAt s.inp.bytesIn j)
    ∃ x : Value c,
      exec i s = .next (s.drive { valOut := x, bytesOut := 0, status := .ok }) ∧
      x.toNat = leNat a ∧
      (∀ m, m < c.n → digit c x m = bytesToDigit c (memRead a (m * c.bytes) c.bytes) .le) ∧
      (x.toInt < 0 ↔ 0x80 ≤ (byteAt s.inp.bytesIn (c.total - 1)).toNat)) ∧
  ∀ native lmax, fromBytes ⟨1, 2, native, lmax⟩ [0xFE#8, 0xFF#8, 0xFF#8, 0xFF#8] .le = 0xFFFFFFFE#32

/-- R165: `from_ne_bytes`. -/
def Obligations.FromNeBytesResult : Prop :=
  decode 0x02#6 = .ok .uintFromNeBytes ∧ decode 0x22#6 = .ok .intFromNeBytes ∧
  (∀ i (s : State), (i = .uintFromNeBytes ∨ i = .intFromNeBytes) → s.cfg.wf = true →
    let a := (List.range s.cfg.total).map (fun j => byteAt s.inp.bytesIn j)
    ∃ x : Value s.cfg,
      exec i s = .next (s.drive { valOut := x, bytesOut := 0, status := .ok }) ∧
      (s.cfg.native = .be → x = fromBytes s.cfg a .be ∧ x.toNat = beNat a) ∧
      (s.cfg.native = .le → x = fromBytes s.cfg a .le ∧ x.toNat = leNat a) ∧
      (∀ y, a = toBytes s.cfg y s.cfg.native → x = y) ∧
      (∀ y e, e ≠ s.cfg.native → a = toBytes s.cfg y e → x = swap s.cfg y)) ∧
  ∀ native lmax,
    fromBytes ⟨1, 2, native, lmax⟩ [0x12#8, 0x34#8, 0x56#8, 0x78#8] .be = 0x12345678#32 ∧
    fromBytes ⟨1, 2, native, lmax⟩ [0x12#8, 0x34#8, 0x56#8, 0x78#8] .le = 0x78563412#32

/-- R166, whose second sentence the spec marks derived from R160 to R165: round trips, both ways, in every order. -/
def Obligations.ArrayRoundTrip : Prop :=
  ∀ (c : Config) (o : ByteOrder),
    (∀ x, fromBytes c (toBytes c x (resolve c o)) (resolve c o) = x) ∧
    (∀ a : List Byte, a.length = c.n * c.bytes → toBytes c (fromBytes c a (resolve c o)) (resolve c o) = a)

/-- R168, which the spec marks derived from R160 to R165: relations between the orders. -/
def Obligations.ArrayOrdersAreReversals : Prop :=
  ∀ (c : Config) (x : Value c), toBytes c x .le = (toBytes c x .be).reverse ∧
    (∀ a : List Byte, a.length = c.n * c.bytes → fromBytes c a .le = fromBytes c a.reverse .be) ∧
    fromBytes c (toBytes c x .le) .be = swap c x ∧
    (c.n * c.bytes = 1 → ∀ e e', toBytes c x e = toBytes c x e' ∧
      ∀ a : List Byte, a.length = 1 → fromBytes c a e = fromBytes c a e')

/-- R43, which the spec marks derived from R42, R28, R29: the layout in digits. -/
def Obligations.ArrayLayoutInDigits : Prop :=
  ∀ (c : Config) (x : Value c),
    (∀ j, j < c.n * c.bytes →
      (toBytes c x .be).getD j 0 = byteAt (digit c x (c.n - 1 - j / c.bytes)) (c.bytes - 1 - j % c.bytes) ∧
      (toBytes c x .le).getD j 0 = byteAt (digit c x (j / c.bytes)) (j % c.bytes)) ∧
    toBytes c x .be = (List.range c.n).reverse.flatMap (fun i => digitToBytes c (digit c x i) .be) ∧
    toBytes c x .le = (List.range c.n).flatMap (fun i => digitToBytes c (digit c x i) .le)

/-- A fixed-order array depends on the number and the total width only, so it is portable between blocks of different
digit width. -/
def Obligations.FixedOrderArraysArePortable : Prop :=
  ∀ (c c' : Config) (x : Value c) (e : Endian), c.total = c'.total →
    (fromBytes c' (toBytes c x e) e).toNat = x.toNat ∧
    toBytes c' (fromBytes c' (toBytes c x e) e) e = toBytes c x e

/-! Whole-value reinterpretation (43_whole_value.md). -/

/-- The whole-array swap: digit order and byte order reversed, the bytes of the value reversed end to end. -/
def Obligations.SwapReversesTheBytes : Prop :=
  (∀ (c : Config) (x : Value c),
    (∀ i, i < c.n → digit c (swap c x) i = bswap c (digit c x (c.n - 1 - i))) ∧
    (∀ m, m < c.total → byteAt (swap c x) m = byteAt x (c.total - 1 - m)) ∧
    swap c x = fromBytes c (toBytes c x .le) .be ∧ swap c x = fromBytes c (toBytes c x .be) .le ∧
    swap c (swap c x) = x ∧ (c.total = 1 → swap c x = x)) ∧
  ∀ native lmax, swap ⟨1, 2, native, lmax⟩ 0x12345678#32 = 0x78563412#32

/-- R181, R183: `to_be` and `from_be`. -/
def Obligations.ToBeAndFromBeResult : Prop :=
  decode 0x0C#6 = .ok .uintToBe ∧ decode 0x2C#6 = .ok .intToBe ∧
  decode 0x10#6 = .ok .uintFromBe ∧ decode 0x30#6 = .ok .intFromBe ∧
  (∀ i (s : State), (i = .uintToBe ∨ i = .intToBe ∨ i = .uintFromBe ∨ i = .intFromBe) → s.cfg.wf = true →
    let c := s.cfg
    let x := s.inp.valIn
    ∃ y : Value c, exec i s = .next (s.drive { valOut := y, bytesOut := 0, status := .ok }) ∧
      (c.native = .be → y = x) ∧ (c.native = .le → y = swap c x) ∧
      ((∀ m, m < c.total → byteAt x m = byteAt x (c.total - 1 - m)) → y = x) ∧
      (c.total = 1 → y = x)) ∧
  ∀ lmax, toOrder ⟨1, 2, .le, lmax⟩ .be 0x12345678#32 = 0x78563412#32 ∧
    toOrder ⟨1, 2, .be, lmax⟩ .be 0x12345678#32 = 0x12345678#32 ∧
    fromOrder ⟨1, 2, .le, lmax⟩ .be 0x12345678#32 = 0x78563412#32 ∧
    fromOrder ⟨1, 2, .be, lmax⟩ .be 0x12345678#32 = 0x12345678#32

/-- R182, R184: `to_le` and `from_le`. -/
def Obligations.ToLeAndFromLeResult : Prop :=
  decode 0x0D#6 = .ok .uintToLe ∧ decode 0x2D#6 = .ok .intToLe ∧
  decode 0x11#6 = .ok .uintFromLe ∧ decode 0x31#6 = .ok .intFromLe ∧
  (∀ i (s : State), (i = .uintToLe ∨ i = .intToLe ∨ i = .uintFromLe ∨ i = .intFromLe) → s.cfg.wf = true →
    let c := s.cfg
    let x := s.inp.valIn
    ∃ y : Value c, exec i s = .next (s.drive { valOut := y, bytesOut := 0, status := .ok }) ∧
      (c.native = .le → y = x) ∧ (c.native = .be → y = swap c x) ∧
      ((∀ m, m < c.total → byteAt x m = byteAt x (c.total - 1 - m)) → y = x) ∧
      (c.total = 1 → y = x)) ∧
  ∀ lmax, toOrder ⟨1, 2, .le, lmax⟩ .le 0x12345678#32 = 0x12345678#32 ∧
    toOrder ⟨1, 2, .be, lmax⟩ .le 0x12345678#32 = 0x78563412#32 ∧
    fromOrder ⟨1, 2, .le, lmax⟩ .le 0x12345678#32 = 0x12345678#32 ∧
    fromOrder ⟨1, 2, .be, lmax⟩ .le 0x12345678#32 = 0x78563412#32

/-- R185: each whole-value operation is its own inverse, whatever the native order. -/
def Obligations.WholeValueInvolution : Prop :=
  ∀ (c : Config) (e : Endian) (x : Value c),
    toOrder c e (toOrder c e x) = x ∧ fromOrder c e (fromOrder c e x) = x

/-- R188, which the spec marks derived from R181, R182: exactly one of the two orders is the identity. -/
def Obligations.OneOrderIsTheIdentity : Prop :=
  ∀ (c : Config) (x : Value c),
    (c.native = .be → toOrder c .be x = x ∧ fromOrder c .be x = x ∧
      toOrder c .le x = swap c x ∧ fromOrder c .le x = swap c x) ∧
    (c.native = .le → toOrder c .le x = x ∧ fromOrder c .le x = x ∧
      toOrder c .be x = swap c x ∧ fromOrder c .be x = swap c x) ∧
    toOrder c .be (toOrder c .le x) = swap c x ∧ toOrder c .le (toOrder c .be x) = swap c x

/-- R186, which the spec marks derived from R181, R182, R162, R165, R168: relation to the array family. -/
def Obligations.WholeValueAndArrayFamiliesAgree : Prop :=
  ∀ c : Config,
    (∀ x : Value c, toBytes c (toOrder c .be x) (resolve c .ne) = toBytes c x .be ∧
      toBytes c (toOrder c .le x) (resolve c .ne) = toBytes c x .le) ∧
    (∀ a : List Byte, a.length = c.n * c.bytes →
      fromOrder c .be (fromBytes c a (resolve c .ne)) = fromBytes c a .be ∧
      fromOrder c .le (fromBytes c a (resolve c .ne)) = fromBytes c a .le)
end

