-- ==== Sys2Proof/Laws/State.lean ====
section
/-! SUPPORT. The small lemmas of the state's updates, and what the one completing operation can do. -/

namespace Sys2Proof.Machine

@[simp] theorem State.drive_cfg (s : State) (o : Outputs s.cfg) : (s.drive o).cfg = s.cfg := rfl

@[simp] theorem State.drive_inp (s : State) (o : Outputs s.cfg) : (s.drive o).inp = s.inp := rfl

@[simp] theorem State.drive_out (s : State) (o : Outputs s.cfg) : (s.drive o).out = o := rfl

@[simp] theorem State.present_cfg (s : State) (r : Inputs s.cfg) : (s.present r).cfg = s.cfg := rfl

@[simp] theorem State.present_inp (s : State) (r : Inputs s.cfg) : (s.present r).inp = r := rfl

@[simp] theorem State.present_out (s : State) (r : Inputs s.cfg) : (s.present r).out = s.out := rfl

@[simp] theorem State.withFetchWord_cfg (s : State) (nbits w : Nat) :
    (s.withFetchWord nbits w).cfg = s.cfg := rfl

@[simp] theorem State.withFetchWord_cmd (s : State) (nbits w : Nat) :
    (s.withFetchWord nbits w).inp.cmd = BitVec.ofNat 6 w := rfl

@[simp] theorem State.withFetchWord_valIn (s : State) (nbits w : Nat) :
    (s.withFetchWord nbits w).inp.valIn = s.inp.valIn := rfl

@[simp] theorem State.withFetchWord_bytesIn (s : State) (nbits w : Nat) :
    (s.withFetchWord nbits w).inp.bytesIn = s.inp.bytesIn := rfl

@[simp] theorem State.withFetchWord_lenIn (s : State) (nbits w : Nat) :
    (s.withFetchWord nbits w).inp.lenIn = s.inp.lenIn := rfl

@[simp] theorem State.withFetchWord_out (s : State) (nbits w : Nat) :
    (s.withFetchWord nbits w).out = s.out := rfl

/-- Driving twice leaves the last response: no earlier result is remembered (R35). -/
@[simp] theorem State.drive_drive (s : State) (o o' : Outputs s.cfg) :
    State.drive (s.drive o) o' = s.drive o' := rfl

@[simp] theorem valueResult_valOut (c : Config) (x : Value c) : (valueResult c x).valOut = x := rfl

@[simp] theorem valueResult_bytesOut (c : Config) (x : Value c) : (valueResult c x).bytesOut = 0 := rfl

@[simp] theorem valueResult_status (c : Config) (x : Value c) : (valueResult c x).status = .ok := rfl

@[simp] theorem bytesResult_valOut (c : Config) (a : List Byte) : (bytesResult c a).valOut = 0 := rfl

@[simp] theorem bytesResult_bytesOut (c : Config) (a : List Byte) :
    (bytesResult c a).bytesOut = packBytes c a := rfl

@[simp] theorem bytesResult_status (c : Config) (a : List Byte) : (bytesResult c a).status = .ok := rfl

@[simp] theorem failure_valOut (c : Config) (st : Status) : (failure c st).valOut = 0 := rfl

@[simp] theorem failure_bytesOut (c : Config) (st : Status) : (failure c st).bytesOut = 0 := rfl

@[simp] theorem failure_status (c : Config) (st : Status) : (failure c st).status = st := rfl

/-- With parameters that make a block, an operation completes with its response. -/
theorem respond_of_wf {s : State} (h : s.cfg.wf = true) (o : Outputs s.cfg) :
    respond s o = .next (s.drive o) := by
  simp [respond, h]

/-- All that completing an operation can do: answer the driven state, and only for well-formed parameters. -/
theorem respond_next {s t : State} {o : Outputs s.cfg} (h : respond s o = .next t) :
    s.cfg.wf = true ∧ t = s.drive o := by
  unfold respond at h
  split at h
  · next hw => exact ⟨hw, by simpa using h.symm⟩
  · cases h

/-- Parameters that make no block are refused by name. -/
theorem respond_of_not_wf {s : State} (h : s.cfg.wf = false) (o : Outputs s.cfg) :
    respond s o = .refused .notAnInstance := by
  simp [respond, h]

end Sys2Proof.Machine
end

