-- ==== Sys2Proof/Laws/Config.lean ====
section
/-! SUPPORT. The arithmetic of the derived parameters (00_scope.md R9, 30_encoding.md R70). -/

namespace Sys2Proof.Config

theorem bytes_pos (c : Config) : 0 < c.bytes := Nat.two_pow_pos _

theorem w_eq (c : Config) : c.w = 8 * c.bytes := rfl

theorem w_pos (c : Config) : 0 < c.w := by
  have := c.bytes_pos
  rw [w_eq]; omega

theorem valBits_eq (c : Config) : c.valBits = 8 * c.total := by
  simp only [valBits, w, total]; ring

theorem valBits_eq_w_mul (c : Config) : c.valBits = c.w * c.n := Nat.mul_comm _ _

/-- The two checks of the parameters, as facts. -/
theorem wf_iff (c : Config) : c.wf = true ↔ 1 ≤ c.n ∧ c.total ≤ c.lmax := by
  simp [wf, digitCountOk, portOk]

theorem wf_n {c : Config} (h : c.wf = true) : 1 ≤ c.n := ((wf_iff c).1 h).1

theorem wf_total {c : Config} (h : c.wf = true) : c.total ≤ c.lmax := ((wf_iff c).1 h).2

theorem valBits_pos {c : Config} (h : 1 ≤ c.n) : 0 < c.valBits :=
  Nat.mul_pos h c.w_pos

theorem total_pos {c : Config} (h : 1 ≤ c.n) : 0 < c.total :=
  Nat.mul_pos h c.bytes_pos

@[simp] theorem lengthOk_iff (c : Config) (len : Nat) : c.lengthOk len = true ↔ len ≤ c.lmax := by
  simp [lengthOk]

/-- `LENW` bits carry every length up to `LMAX`. -/
theorem lmax_lt_two_pow_lenW (c : Config) : c.lmax < 2 ^ c.lenW := by
  unfold lenW
  split
  · omega
  · exact Nat.lt_log2_self

/-- `LENW` is the least such width: it is `ceil(log2(LMAX+1))` (R70). -/
theorem lenW_le_of_lt_two_pow (c : Config) (m : Nat) (h : c.lmax < 2 ^ m) : c.lenW ≤ m := by
  unfold lenW
  split
  · omega
  · next h0 => exact (Nat.log2_lt h0).2 h

/-- A digit is `256^BYTES` wide (R9). -/
theorem two_pow_w (c : Config) : 2 ^ c.w = 256 ^ c.bytes := by
  rw [w_eq, Nat.pow_mul]

theorem two_pow_valBits (c : Config) : 2 ^ c.valBits = 256 ^ c.total := by
  rw [valBits_eq, Nat.pow_mul]

theorem two_pow_valBits' (c : Config) : 2 ^ c.valBits = (2 ^ c.w) ^ c.n := by
  rw [valBits_eq_w_mul, Nat.pow_mul]

end Sys2Proof.Config
end

