-- ==== Sys2Proof/Laws/Bytes.lean ====
section
/-! SUPPORT. Byte sequences as numbers: `be_nat`, `le_nat`, bytes of a bit pattern, lanes of a bus. -/

namespace Sys2Proof.Machine

@[simp] theorem leNat_nil : leNat [] = 0 := rfl

@[simp] theorem leNat_cons (b : Byte) (l : List Byte) : leNat (b :: l) = b.toNat + 256 * leNat l := rfl

@[simp] theorem beNat_nil : beNat [] = 0 := rfl

theorem leNat_append (a b : List Byte) : leNat (a ++ b) = leNat a + 256 ^ a.length * leNat b := by
  induction a with
  | nil => simp
  | cons x xs ih => simp only [List.cons_append, leNat_cons, ih, List.length_cons, Nat.pow_succ]; ring

theorem leNat_lt (l : List Byte) : leNat l < 256 ^ l.length := by
  induction l with
  | nil => simp
  | cons x xs ih =>
    have hx : x.toNat < 256 := x.isLt
    simp only [leNat_cons, List.length_cons, Nat.pow_succ]
    omega

/-- `le_nat(b) = be_nat(rev(b))` (00_scope.md section 5.1). -/
theorem leNat_reverse (l : List Byte) : leNat l.reverse = beNat l := by
  induction l with
  | nil => rfl
  | cons x xs ih =>
    simp only [List.reverse_cons, leNat_append, List.length_reverse, leNat_cons, leNat_nil, beNat, ih]
    ring

theorem beNat_reverse (l : List Byte) : beNat l.reverse = leNat l := by
  rw [← leNat_reverse, List.reverse_reverse]

theorem beNat_lt (l : List Byte) : beNat l < 256 ^ l.length := by
  rw [← leNat_reverse, ← List.length_reverse]; exact leNat_lt _

theorem natOf_lt (e : Endian) (l : List Byte) : natOf e l < 256 ^ l.length := by
  cases e
  · exact beNat_lt l
  · exact leNat_lt l

@[simp] theorem length_lanes {m : Nat} (x : BitVec m) (n : Nat) : (lanes x n).length = n := by
  simp [lanes]

theorem byteAt_toNat {m : Nat} (x : BitVec m) (j : Nat) :
    (byteAt x j).toNat = x.toNat / 256 ^ j % 256 := by
  simp only [byteAt, BitVec.extractLsb'_toNat, Nat.shiftRight_eq_div_pow, Nat.pow_mul]

/-- The number of a byte list determines its bytes. -/
theorem leNat_div_mod (l : List Byte) (j : Nat) : leNat l / 256 ^ j % 256 = (l.getD j 0).toNat := by
  induction l generalizing j with
  | nil => simp
  | cons x xs ih =>
    have hx : x.toNat < 256 := x.isLt
    cases j with
    | zero => simp only [leNat_cons, Nat.pow_zero, Nat.div_one, List.getD_cons_zero]; omega
    | succ j =>
      rw [Nat.pow_succ', ← Nat.div_div_eq_div_mul, List.getD_cons_succ, ← ih j, leNat_cons]
      congr 2
      omega

theorem leNat_inj {a b : List Byte} (hl : a.length = b.length) (h : leNat a = leNat b) : a = b := by
  apply List.ext_getElem hl
  intro j ha hb
  apply BitVec.eq_of_toNat_eq
  have e := leNat_div_mod a j
  rw [h, leNat_div_mod b j] at e
  simpa [List.getD_eq_getElem?_getD, ha, hb] using e.symm

/-- The first `n` bytes of a bit pattern, read little-endian, are the pattern modulo `256^n`. -/
theorem leNat_lanes {m : Nat} (x : BitVec m) (n : Nat) : leNat (lanes x n) = x.toNat % 256 ^ n := by
  induction n with
  | zero => simp [lanes, Nat.mod_one]
  | succ n ih =>
    have hl : lanes x (n + 1) = lanes x n ++ [byteAt x n] := by simp [lanes, List.range_succ]
    rw [hl, leNat_append, ih, length_lanes, leNat_cons, leNat_nil, byteAt_toNat, Nat.pow_succ,
      Nat.mod_mul]
    simp

theorem beNat_lanes_reverse {m : Nat} (x : BitVec m) (n : Nat) :
    beNat (lanes x n).reverse = x.toNat % 256 ^ n := by
  rw [beNat_reverse, leNat_lanes]

/-- Lane `j` of a bus that carries a byte list is its byte at position `j` (R74). -/
theorem byteAt_ofNat_leNat (m : Nat) (l : List Byte) (hl : 8 * l.length ≤ m) (j : Nat) :
    byteAt (BitVec.ofNat m (leNat l)) j = l.getD j 0 := by
  apply BitVec.eq_of_toNat_eq
  have h1 : leNat l < 2 ^ m :=
    lt_of_lt_of_le (leNat_lt l) (by
      rw [show (256 : Nat) = 2 ^ 8 from rfl, ← Nat.pow_mul]
      exact Nat.pow_le_pow_right (by decide) hl)
  rw [byteAt_toNat, BitVec.toNat_ofNat, Nat.mod_eq_of_lt h1, leNat_div_mod]

theorem lanes_ofNat_leNat (m : Nat) (l : List Byte) (hl : 8 * l.length ≤ m) :
    lanes (BitVec.ofNat m (leNat l)) l.length = l := by
  apply List.ext_getElem (by simp)
  intro j h1 h2
  simp [lanes, byteAt_ofNat_leNat m l hl, List.getD_eq_getElem?_getD, h2]

/-- The bytes of a pattern of `8·n` bits determine it. -/
theorem ofNat_leNat_lanes (n : Nat) {m : Nat} (hm : m = 8 * n) (x : BitVec m) :
    BitVec.ofNat m (leNat (lanes x n)) = x := by
  apply BitVec.eq_of_toNat_eq
  have h2 : (256 : Nat) ^ n = 2 ^ m := by
    rw [hm, Nat.pow_mul]
  rw [leNat_lanes, h2, BitVec.toNat_ofNat, Nat.mod_mod, Nat.mod_eq_of_lt x.isLt]

theorem lanes_getD {m : Nat} (x : BitVec m) (n j : Nat) :
    (lanes x n).getD j 0 = if j < n then byteAt x j else 0 := by
  simp only [lanes, List.getD_eq_getElem?_getD, List.getElem?_map]
  split <;> simp_all

/-- Reversing the lanes reads them from the other end. -/
theorem lanes_reverse {m : Nat} (x : BitVec m) (n : Nat) :
    (lanes x n).reverse = (List.range n).map (fun k => byteAt x (n - 1 - k)) := by
  apply List.ext_getElem (by simp)
  intro j h1 h2
  simp [lanes]

theorem leNat_replicate_zero (n : Nat) : leNat (List.replicate n 0#8) = 0 := by
  induction n with
  | zero => rfl
  | succ n ih => simp [List.replicate_succ, ih]

theorem leNat_replicate_ff (n : Nat) : leNat (List.replicate n 0xFF#8) + 1 = 256 ^ n := by
  induction n with
  | zero => rfl
  | succ n ih =>
    simp only [List.replicate_succ, leNat_cons, Nat.pow_succ, BitVec.toNat_ofNat]
    omega

/-- `MemRead` inside the sequence gives exactly the bytes asked for. -/
theorem length_memRead (src : List Byte) (addr n : Nat) (h : addr + n ≤ src.length) :
    (memRead src addr n).length = n := by
  simp only [memRead, List.length_take, List.length_drop]; omega

/-- `MemWrite` inside the array keeps its length. -/
theorem length_memWrite (dst v : List Byte) (addr : Nat) (h : addr + v.length ≤ dst.length) :
    (memWrite dst addr v).length = dst.length := by
  simp only [memWrite, List.length_append, List.length_take, List.length_drop]; omega

/-- Reading a slice from the front in reverse is reading its reversal from the back. -/
theorem memRead_reverse (src : List Byte) (addr n : Nat) (h : addr + n ≤ src.length) :
    (memRead src (src.length - (addr + n)) n).reverse = memRead src.reverse addr n := by
  apply List.ext_getElem
  · simp only [memRead, List.length_reverse, List.length_take, List.length_drop]; omega
  · intro j h1 h2
    simp only [memRead, List.length_take, List.length_drop, List.length_reverse] at h1 h2
    simp only [memRead, List.getElem_reverse, List.getElem_take, List.getElem_drop,
      List.length_take, List.length_drop]
    congr 1
    omega

end Sys2Proof.Machine
end

