-- ==== Sys2Proof/Laws/Digits.lean ====
section
/-! SUPPORT. The sub-units `digit_to_bytes` and `bytes_to_digit`, and a value as a list of digits. -/

namespace Sys2Proof.Machine

theorem length_digitToBytes (c : Config) (d : Digit c) (e : Endian) :
    (digitToBytes c d e).length = c.bytes := by
  cases e <;> simp [digitToBytes]

theorem digitToBytes_le (c : Config) (d : Digit c) : digitToBytes c d .le = lanes d c.bytes := rfl

/-- The two fixed orders are each other's reversal (R101). -/
theorem digitToBytes_be (c : Config) (d : Digit c) :
    digitToBytes c d .be = (lanes d c.bytes).reverse := (lanes_reverse d c.bytes).symm

theorem leNat_digitToBytes_le (c : Config) (d : Digit c) : leNat (digitToBytes c d .le) = d.toNat := by
  rw [digitToBytes_le, leNat_lanes, ← c.two_pow_w, Nat.mod_eq_of_lt d.isLt]

theorem natOf_digitToBytes (c : Config) (d : Digit c) (e : Endian) :
    natOf e (digitToBytes c d e) = d.toNat := by
  cases e
  · simp only [natOf]
    rw [digitToBytes_be, beNat_reverse, ← digitToBytes_le, leNat_digitToBytes_le]
  · exact leNat_digitToBytes_le c d

/-- `bytes_to_digit` loses nothing: the number of `BYTES` bytes fits a digit (R104). -/
theorem toNat_bytesToDigit (c : Config) (b : List Byte) (e : Endian) (h : b.length = c.bytes) :
    (bytesToDigit c b e).toNat = natOf e b := by
  have := natOf_lt e b
  rw [h, ← c.two_pow_w] at this
  simp [bytesToDigit, Nat.mod_eq_of_lt this]

theorem bytesToDigit_digitToBytes (c : Config) (d : Digit c) (e : Endian) :
    bytesToDigit c (digitToBytes c d e) e = d := by
  apply BitVec.eq_of_toNat_eq
  rw [toNat_bytesToDigit c _ e (length_digitToBytes c d e), natOf_digitToBytes]

theorem natOf_inj (e : Endian) {a b : List Byte} (hl : a.length = b.length) (h : natOf e a = natOf e b) :
    a = b := by
  cases e
  · have h' : leNat a.reverse = leNat b.reverse := by simpa only [natOf, leNat_reverse] using h
    exact List.reverse_injective (leNat_inj (by simpa using hl) h')
  · exact leNat_inj hl h

theorem digitToBytes_bytesToDigit (c : Config) (b : List Byte) (e : Endian) (h : b.length = c.bytes) :
    digitToBytes c (bytesToDigit c b e) e = b := by
  apply natOf_inj e (by rw [length_digitToBytes, h])
  rw [natOf_digitToBytes, toNat_bytesToDigit c b e h]

/-- A big-endian chunk is the little-endian reading of its reversal. -/
theorem bytesToDigit_be (c : Config) (b : List Byte) :
    bytesToDigit c b .be = bytesToDigit c b.reverse .le := by
  simp only [bytesToDigit, natOf, leNat_reverse]

/-- `bswap` is reading the big-endian bytes little-endian (R105). -/
theorem bswap_eq (c : Config) (d : Digit c) :
    bswap c d = bytesToDigit c (digitToBytes c d .be) .le := rfl

theorem toNat_digit (c : Config) (x : Value c) (i : Nat) :
    (digit c x i).toNat = x.toNat / (2 ^ c.w) ^ i % 2 ^ c.w := by
  simp only [digit, BitVec.extractLsb'_toNat, Nat.shiftRight_eq_div_pow, Nat.pow_mul]

@[simp] theorem digitsNat_nil (c : Config) : digitsNat c [] = 0 := rfl

@[simp] theorem digitsNat_cons (c : Config) (d : Digit c) (ds : List (Digit c)) :
    digitsNat c (d :: ds) = d.toNat + 2 ^ c.w * digitsNat c ds := rfl

theorem digitsNat_append (c : Config) (a b : List (Digit c)) :
    digitsNat c (a ++ b) = digitsNat c a + (2 ^ c.w) ^ a.length * digitsNat c b := by
  induction a with
  | nil => simp
  | cons x xs ih =>
    simp only [List.cons_append, digitsNat_cons, ih, List.length_cons, Nat.pow_succ]; ring

theorem digitsNat_lt (c : Config) (ds : List (Digit c)) : digitsNat c ds < (2 ^ c.w) ^ ds.length := by
  induction ds with
  | nil => simp
  | cons x xs ih =>
    have hx := x.isLt
    simp only [digitsNat_cons, List.length_cons, Nat.pow_succ]
    calc x.toNat + 2 ^ c.w * digitsNat c xs < 2 ^ c.w * (digitsNat c xs + 1) := by
          rw [Nat.mul_add]; omega
      _ ≤ (2 ^ c.w) ^ xs.length * 2 ^ c.w := by
          rw [Nat.mul_comm]; exact Nat.mul_le_mul_right _ ih

theorem digitsNat_digits (c : Config) (x : Value c) (m : Nat) :
    digitsNat c ((List.range m).map (digit c x)) = x.toNat % (2 ^ c.w) ^ m := by
  induction m with
  | zero => simp [Nat.mod_one]
  | succ m ih =>
    rw [List.range_succ, List.map_append, digitsNat_append, ih, Nat.pow_succ, Nat.mod_mul]
    simp [toNat_digit]

/-- A value is assembled from its own digits (R29, R136). -/
theorem assemble_digits (c : Config) (x : Value c) :
    assemble c ((List.range c.n).map (digit c x)) = x := by
  apply BitVec.eq_of_toNat_eq
  have h := x.isLt
  rw [assemble, digitsNat_digits, BitVec.toNat_ofNat, ← c.two_pow_valBits', Nat.mod_mod,
    Nat.mod_eq_of_lt h]

/-- Assembling `N` digits drops nothing. -/
theorem toNat_assemble (c : Config) (ds : List (Digit c)) (h : ds.length = c.n) :
    (assemble c ds).toNat = digitsNat c ds := by
  have := digitsNat_lt c ds
  rw [h, ← c.two_pow_valBits'] at this
  simp [assemble, Nat.mod_eq_of_lt this]

/-- The digits of blocks of `BYTES` bytes read little-endian are the number of all the bytes. -/
theorem digitsNat_map_bytesToDigit (c : Config) (bss : List (List Byte))
    (h : ∀ b ∈ bss, b.length = c.bytes) :
    digitsNat c (bss.map (fun b => bytesToDigit c b .le)) = leNat bss.flatten := by
  induction bss with
  | nil => rfl
  | cons b bs ih =>
    have hb := h b (by simp)
    rw [List.map_cons, digitsNat_cons, ih (fun b' hb' => h b' (by simp [hb'])), List.flatten_cons,
      leNat_append, toNat_bytesToDigit c b .le hb, hb, c.two_pow_w]
    rfl

/-- Cutting a sequence into blocks and joining them again. -/
theorem flatten_blocks (l : List Byte) (b m : Nat) :
    ((List.range m).map (fun i => memRead l (i * b) b)).flatten = l.take (m * b) := by
  induction m with
  | zero => simp
  | succ m ih =>
    rw [List.range_succ, List.map_append, List.flatten_append, ih]
    simp only [List.map_cons, List.map_nil, List.flatten_cons, List.flatten_nil, List.append_nil, memRead]
    rw [Nat.succ_mul, List.take_add]

/-- Byte `k` of digit `i` is byte `i·BYTES+k` of the value (R43). -/
theorem byteAt_digit (c : Config) (x : Value c) (i k : Nat) (h : k < c.bytes) :
    byteAt (digit c x i) k = byteAt x (i * c.bytes + k) := by
  apply BitVec.eq_of_getLsbD_eq
  intro j hj
  have hk : 8 * k + j < c.w := by rw [c.w_eq]; omega
  simp only [byteAt, digit, BitVec.getLsbD_extractLsb', hj, hk, decide_true, Bool.true_and]
  congr 1
  rw [c.w_eq]; ring

/-- The little-endian bytes of the digits, in order, are the bytes of the value. -/
theorem flatMap_digitToBytes_le (c : Config) (x : Value c) (m : Nat) :
    (List.range m).flatMap (fun i => digitToBytes c (digit c x i) .le) = lanes x (m * c.bytes) := by
  induction m with
  | zero => simp [lanes]
  | succ m ih =>
    rw [List.range_succ, List.flatMap_append, ih, Nat.succ_mul]
    simp only [List.flatMap_cons, List.flatMap_nil, List.append_nil, digitToBytes, lanes, List.range_add,
      List.map_append, List.map_map]
    congr 1
    apply List.map_congr_left
    intro k hk
    exact byteAt_digit c x m k (List.mem_range.1 hk)

/-- The all-ones digit is `2^W − 1`. -/
theorem toNat_allOnesDigit (c : Config) : (allOnesDigit c).toNat = 2 ^ c.w - 1 := by
  have := Nat.two_pow_pos c.w
  simp only [allOnesDigit, BitVec.toNat_ofNat]
  exact Nat.mod_eq_of_lt (by omega)

@[simp] theorem toNat_zeroDigit (c : Config) : (zeroDigit c).toNat = 0 := by
  simp [zeroDigit]

theorem zeroValue_eq (c : Config) : zeroValue c = 0 := by
  have h : ∀ m, digitsNat c (List.replicate m (zeroDigit c)) = 0 := by
    intro m
    induction m with
    | zero => rfl
    | succ m ih => simp [List.replicate_succ, ih]
  apply BitVec.eq_of_toNat_eq
  simp [zeroValue, assemble, h]

end Sys2Proof.Machine
end

