-- ==== Sys2Proof/Laws/Arrays.lean ====
section
/-! SUPPORT. What the exact-array operations and the endian swap compute, in bytes of the value. -/

namespace Sys2Proof.Machine

theorem memWrite_next (a v : List Byte) (r : Nat) :
    memWrite (a ++ List.replicate r 0) a.length v = (a ++ v) ++ List.replicate (r - v.length) 0 := by
  simp [memWrite, List.drop_append, List.drop_replicate]

theorem memWrite_prev (a v : List Byte) (r : Nat) (h : v.length ≤ r) :
    memWrite (List.replicate r 0 ++ a) (r - v.length) v
      = List.replicate (r - v.length) 0 ++ (v ++ a) := by
  have h1 : r - v.length + v.length = r := by omega
  simp only [memWrite, h1]
  have h2 : List.drop r (List.replicate r (0 : Byte) ++ a) = a := by simp
  have h3 : List.take (r - v.length) (List.replicate r (0 : Byte) ++ a)
      = List.replicate (r - v.length) 0 := by
    simp only [List.take_append, List.take_replicate, List.length_replicate]
    have : r - v.length - r = 0 := by omega
    simp [this]
  rw [h2, h3, List.append_assoc]

/-- The little-endian write loop, after `m` digits. -/
theorem toBytes_le_loop (c : Config) (x : Value c) (m : Nat) (hm : m ≤ c.n) :
    (List.range m).foldl
      (fun dst i => memWrite dst (digitPosition c .le i) (digitToBytes c (digit c x i) .le))
      (List.replicate c.total 0)
      = lanes x (m * c.bytes) ++ List.replicate (c.total - m * c.bytes) 0 := by
  induction m with
  | zero => simp [lanes]
  | succ m ih =>
    have hle : (m + 1) * c.bytes ≤ c.total := Nat.mul_le_mul_right _ hm
    rw [Nat.succ_mul] at hle
    rw [List.range_succ, List.foldl_append, ih (by omega)]
    simp only [List.foldl_cons, List.foldl_nil, digitPosition]
    have key := memWrite_next (lanes x (m * c.bytes)) (digitToBytes c (digit c x m) .le)
      (c.total - m * c.bytes)
    rw [length_lanes] at key
    rw [key, length_digitToBytes]
    congr 1
    · rw [← flatMap_digitToBytes_le, ← flatMap_digitToBytes_le, List.range_succ, List.flatMap_append]
      simp
    · congr 1
      rw [Nat.succ_mul]; omega

/-- The big-endian write loop, after `m` digits. -/
theorem toBytes_be_loop (c : Config) (x : Value c) (m : Nat) (hm : m ≤ c.n) :
    (List.range m).foldl
      (fun dst i => memWrite dst (digitPosition c .be i) (digitToBytes c (digit c x i) .be))
      (List.replicate c.total 0)
      = List.replicate (c.total - m * c.bytes) 0 ++ (lanes x (m * c.bytes)).reverse := by
  induction m with
  | zero => simp [lanes]
  | succ m ih =>
    have hle : (m + 1) * c.bytes ≤ c.total := Nat.mul_le_mul_right _ hm
    rw [Nat.succ_mul] at hle
    rw [List.range_succ, List.foldl_append, ih (by omega)]
    simp only [List.foldl_cons, List.foldl_nil, digitPosition]
    have hp : (c.n - 1 - m) * c.bytes = c.total - m * c.bytes - (digitToBytes c (digit c x m) .be).length := by
      rw [length_digitToBytes, Config.total, Nat.sub_sub, Nat.sub_sub, Nat.sub_mul]
      congr 1
      rw [Nat.add_mul, Nat.one_mul, Nat.add_comm]
    rw [hp, memWrite_prev _ _ _ (by rw [length_digitToBytes]; omega), length_digitToBytes]
    congr 1
    · congr 1
      rw [Nat.succ_mul]; omega
    · rw [digitToBytes_be, ← List.reverse_append]
      congr 1
      rw [← flatMap_digitToBytes_le, ← flatMap_digitToBytes_le, List.range_succ, List.flatMap_append]
      simp [digitToBytes_le]

/-- `to_le_bytes` is the bytes of the value, least significant first (R161). -/
theorem toBytes_le (c : Config) (x : Value c) : toBytes c x .le = lanes x c.total := by
  rw [toBytes, toBytes_le_loop c x c.n (Nat.le_refl _)]
  simp [Config.total]

/-- `to_be_bytes` is the bytes of the value, most significant first (R160). -/
theorem toBytes_be (c : Config) (x : Value c) : toBytes c x .be = (lanes x c.total).reverse := by
  rw [toBytes, toBytes_be_loop c x c.n (Nat.le_refl _)]
  simp [Config.total]

theorem length_toBytes (c : Config) (x : Value c) (e : Endian) : (toBytes c x e).length = c.total := by
  cases e <;> simp [toBytes_be, toBytes_le]

/-- The number of the array in its own order is the value (R42). -/
theorem natOf_toBytes (c : Config) (x : Value c) (e : Endian) : natOf e (toBytes c x e) = x.toNat := by
  have h : x.toNat % 256 ^ c.total = x.toNat := by
    rw [← c.two_pow_valBits]; exact Nat.mod_eq_of_lt x.isLt
  cases e
  · simp only [natOf, toBytes_be, beNat_lanes_reverse, h]
  · simp only [natOf, toBytes_le, leNat_lanes, h]

/-- `from_le_bytes` reads the array as one little-endian number (R164). -/
theorem fromBytes_le (c : Config) (a : List Byte) (h : a.length = c.total) :
    fromBytes c a .le = BitVec.ofNat c.valBits (leNat a) := by
  have hb := digitsNat_map_bytesToDigit c ((List.range c.n).map (fun i => memRead a (i * c.bytes) c.bytes))
    (by
      intro b hb
      obtain ⟨i, hi, rfl⟩ := List.mem_map.1 hb
      apply length_memRead
      have : (i + 1) * c.bytes ≤ c.n * c.bytes := Nat.mul_le_mul_right _ (List.mem_range.1 hi)
      rw [h, Config.total]; rw [Nat.succ_mul] at this; exact this)
  rw [flatten_blocks, List.take_of_length_le (by rw [h, Config.total]), List.map_map] at hb
  simp only [fromBytes, assemble, digitPosition]
  rw [← hb]
  rfl

/-- `from_be_bytes(a) = from_le_bytes(rev(a))` (R168). -/
theorem fromBytes_be_reverse (c : Config) (a : List Byte) (h : a.length = c.total) :
    fromBytes c a .be = fromBytes c a.reverse .le := by
  simp only [fromBytes]
  congr 1
  apply List.map_congr_left
  intro i hi
  have hi' := List.mem_range.1 hi
  have hle : (i + 1) * c.bytes ≤ c.n * c.bytes := Nat.mul_le_mul_right _ hi'
  rw [bytesToDigit_be]
  congr 1
  simp only [digitPosition]
  rw [Nat.succ_mul] at hle
  rw [← memRead_reverse a (i * c.bytes) c.bytes (by rw [h, Config.total]; exact hle)]
  congr 2
  rw [h, Config.total, Nat.sub_sub, Nat.sub_mul, Nat.add_mul, Nat.one_mul, Nat.add_comm c.bytes]

/-- `from_be_bytes` reads the array as one big-endian number (R163). -/
theorem fromBytes_be (c : Config) (a : List Byte) (h : a.length = c.total) :
    fromBytes c a .be = BitVec.ofNat c.valBits (beNat a) := by
  rw [fromBytes_be_reverse c a h, fromBytes_le c _ (by simpa using h), leNat_reverse]

theorem fromBytes_eq (c : Config) (a : List Byte) (e : Endian) (h : a.length = c.total) :
    fromBytes c a e = BitVec.ofNat c.valBits (natOf e a) := by
  cases e
  · exact fromBytes_be c a h
  · exact fromBytes_le c a h

theorem toNat_fromBytes (c : Config) (a : List Byte) (e : Endian) (h : a.length = c.total) :
    (fromBytes c a e).toNat = natOf e a := by
  have := natOf_lt e a
  rw [h, ← c.two_pow_valBits] at this
  rw [fromBytes_eq c a e h, BitVec.toNat_ofNat, Nat.mod_eq_of_lt this]

/-- The whole-array swap reads the little-endian array big-endian (R180). -/
theorem swap_eq_fromBytes (c : Config) (x : Value c) : swap c x = fromBytes c (toBytes c x .le) .be := by
  rw [fromBytes_be_reverse c _ (length_toBytes c x .le), toBytes_le, ← toBytes_be]
  simp only [swap, fromBytes]
  congr 1
  apply List.map_congr_left
  intro i hi
  have hi' := List.mem_range.1 hi
  have hle : (i + 1) * c.bytes ≤ c.n * c.bytes := Nat.mul_le_mul_right _ hi'
  rw [Nat.succ_mul] at hle
  rw [bswap_eq]
  congr 1
  have hT : c.total = c.n * c.bytes := rfl
  have hN : (c.n - 1 - i) * c.bytes = c.total - (i * c.bytes + c.bytes) := by
    rw [hT, Nat.sub_sub, Nat.sub_mul, Nat.add_mul, Nat.one_mul, Nat.add_comm c.bytes]
  rw [toBytes_be, lanes_reverse, digitToBytes]
  simp only [digitPosition]
  apply List.ext_getElem
  · simp only [List.length_map, List.length_range, memRead, List.length_take, List.length_drop]
    omega
  · intro k h1 h2
    simp only [List.length_map, List.length_range] at h1
    simp only [List.getElem_map, List.getElem_range, memRead, List.getElem_take, List.getElem_drop]
    rw [byteAt_digit c x _ _ (by omega)]
    congr 1
    omega

end Sys2Proof.Machine
end

