-- ==== Sys2Proof/Laws/Slices.lean ====
section
/-! SUPPORT. What the slice decode computes: the chunks as one number, the verdicts, the working digits. -/

namespace Sys2Proof.Machine

/-! The chunk arithmetic (20_memory.md R47, R51). -/

theorem fullChunks_eq (c : Config) (len : Nat) : fullChunks c len = len / c.bytes := by
  simp only [fullChunks, Config.byteShift, Config.bytes, Nat.shiftRight_eq_div_pow]

theorem leftover_eq (c : Config) (len : Nat) : leftover c len = len % c.bytes := by
  simp only [leftover, Config.bytes, Nat.and_two_pow_sub_one_eq_mod]

theorem leftover_lt (c : Config) (len : Nat) : leftover c len < c.bytes := by
  rw [leftover_eq]; exact Nat.mod_lt _ c.bytes_pos

theorem fullChunks_mul_add (c : Config) (len : Nat) :
    fullChunks c len * c.bytes + leftover c len = len := by
  rw [fullChunks_eq, leftover_eq, Nat.mul_comm]; exact Nat.div_add_mod _ _

/-- `C`, the number of chunks (R51). -/
theorem length_chunkDigits (c : Config) (src : List Byte) (e : Endian) (pad : Byte) :
    (chunkDigits c src e pad).length
      = fullChunks c src.length + (if leftover c src.length ≠ 0 then 1 else 0) := by
  simp only [chunkDigits, List.length_append, List.length_map, List.length_range]
  split <;> simp

/-- The pad bytes above a partial chunk: none when the length is a multiple of `BYTES`. -/
def padLength (c : Config) (len : Nat) : Nat :=
  if leftover c len ≠ 0 then c.bytes - leftover c len else 0

theorem length_chunkDigits_mul (c : Config) (src : List Byte) (e : Endian) (pad : Byte) :
    (chunkDigits c src e pad).length * c.bytes = src.length + padLength c src.length := by
  have h := fullChunks_mul_add c src.length
  have hl := leftover_lt c src.length
  rw [length_chunkDigits, padLength, Nat.add_mul]
  split <;> omega

/-- Little-endian: the chunks are the slice with its pad bytes above, cut into digits (R47 to R49). -/
theorem digitsNat_chunkDigits_le (c : Config) (src : List Byte) (pad : Byte) :
    digitsNat c (chunkDigits c src .le pad)
      = leNat (src ++ List.replicate (padLength c src.length) pad) := by
  have h := fullChunks_mul_add c src.length
  have hfull := digitsNat_map_bytesToDigit c
    ((List.range (fullChunks c src.length)).map (fun i => memRead src (i * c.bytes) c.bytes))
    (by
      intro b hb
      obtain ⟨i, hi, rfl⟩ := List.mem_map.1 hb
      apply length_memRead
      have : (i + 1) * c.bytes ≤ fullChunks c src.length * c.bytes :=
        Nat.mul_le_mul_right _ (List.mem_range.1 hi)
      rw [Nat.succ_mul] at this; omega)
  rw [flatten_blocks, List.map_map] at hfull
  have htake : (src.take (fullChunks c src.length * c.bytes)).length = fullChunks c src.length * c.bytes := by
    rw [List.length_take]; omega
  have hpart : partialChunk c src .le = src.drop (fullChunks c src.length * c.bytes) := by
    simp only [partialChunk, memRead]
    rw [show src.length - leftover c src.length = fullChunks c src.length * c.bytes by omega]
    apply List.take_of_length_le
    rw [List.length_drop]; omega
  have hlen : (src.drop (fullChunks c src.length * c.bytes)).length = leftover c src.length := by
    rw [List.length_drop]; omega
  rw [chunkDigits, digitsNat_append]
  have hfull' : digitsNat c ((List.range (fullChunks c src.length)).map
      (fun i => bytesToDigit c (fullChunk c src .le i) .le))
      = leNat (src.take (fullChunks c src.length * c.bytes)) := hfull
  rw [hfull', List.length_map, List.length_range]
  have hsrc : leNat (src ++ List.replicate (padLength c src.length) pad)
      = leNat (src.take (fullChunks c src.length * c.bytes) ++ (src.drop (fullChunks c src.length * c.bytes)
          ++ List.replicate (padLength c src.length) pad)) := by
    rw [← List.append_assoc, List.take_append_drop]
  rw [hsrc, leNat_append, htake, c.two_pow_w, ← Nat.pow_mul, Nat.mul_comm c.bytes]
  congr 2
  by_cases hr : leftover c src.length = 0
  · have hnil : src.drop (fullChunks c src.length * c.bytes) = [] :=
      List.eq_nil_of_length_eq_zero (by rw [hlen, hr])
    rw [hnil]
    simp [hr, padLength]
  · simp only [ne_eq, hr, not_false_eq_true, if_true, padLength, padChunk, hpart, digitsNat_cons,
      digitsNat_nil, Nat.mul_zero, Nat.add_zero, hlen]
    apply toNat_bytesToDigit
    have := leftover_lt c src.length
    rw [List.length_append, hlen, List.length_replicate]; omega

/-- Big-endian is the mirror (R47, R49, C4): the chunks of a slice are those of its reversal read little-endian. -/
theorem chunkDigits_be (c : Config) (src : List Byte) (pad : Byte) :
    chunkDigits c src .be pad = chunkDigits c src.reverse .le pad := by
  have h := fullChunks_mul_add c src.length
  simp only [chunkDigits, List.length_reverse]
  congr 1
  · apply List.map_congr_left
    intro i hi
    have : (i + 1) * c.bytes ≤ fullChunks c src.length * c.bytes :=
      Nat.mul_le_mul_right _ (List.mem_range.1 hi)
    rw [bytesToDigit_be]
    congr 1
    simp only [fullChunk]
    rw [Nat.succ_mul] at *
    exact memRead_reverse src (i * c.bytes) c.bytes (by omega)
  · split
    · next hr =>
      congr 1
      have hp : (partialChunk c src .be).reverse = partialChunk c src.reverse .le := by
        simp only [partialChunk, List.length_reverse]
        rw [← memRead_reverse src (src.length - leftover c src.length) (leftover c src.length) (by omega)]
        congr 2
        omega
      simp only [padChunk]
      rw [bytesToDigit_be, List.reverse_append, hp, List.reverse_replicate, ← hp, List.length_reverse]
    · rfl

/-- The most-significant byte of a slice is that of its mirror (R54). -/
theorem msByte_be (src : List Byte) (h : src.length ≠ 0) : msByte src .be = msByte src.reverse .le := by
  cases src with
  | nil => simp at h
  | cons x xs => simp [msByte, List.getD_eq_getElem?_getD]

/-! The examination loop. -/

/-- Verdict `STORE` is given only to a chunk with a destination digit. -/
theorem verdict_store (c : Config) (f : Flavour) (i : Nat) (d : Digit c) (neg : Bool)
    (h : verdict c f i d neg = .store) : i < c.n := by
  cases f
  · simp only [verdict] at h
    split at h
    · assumption
    · split at h <;> cases h
  · simp only [verdict] at h
    split at h
    · omega
    · split at h
      · omega
      · split at h <;> cases h

/-- Verdict `SKIP` is given only to filler. -/
theorem verdict_skip (c : Config) (f : Flavour) (i : Nat) (d : Digit c) (neg : Bool)
    (h : verdict c f i d neg = .skip) : c.n ≤ i := by
  cases f
  · simp only [verdict] at h
    split at h
    · cases h
    · omega
  · simp only [verdict] at h
    split at h
    · cases h
    · split at h
      · split at h <;> cases h
      · omega

/-- What the loop does (R116): it fails exactly when some chunk's verdict is `FAIL`, and otherwise every chunk with
a destination digit has been stored. -/
theorem examineFrom_eq (c : Config) (f : Flavour) (ds : List (Digit c)) :
    ∀ (wk : Work c) (i : Nat), wk.d.length = c.n →
      examineFrom c f wk i ds
        = if ∀ j, (h : j < ds.length) → verdict c f (i + j) ds[j] wk.isNegative ≠ .fail then
            some { wk with d := wk.d.take i ++ ds.take (c.n - i) ++ wk.d.drop (i + ds.length) }
          else none := by
  induction ds with
  | nil =>
    intro wk i _
    simp [examineFrom]
  | cons x xs ih =>
    intro wk i hlen
    have hsplit : (∀ j, (h : j < (x :: xs).length) → verdict c f (i + j) (x :: xs)[j] wk.isNegative ≠ .fail)
        ↔ verdict c f i x wk.isNegative ≠ .fail ∧
          ∀ j, (h : j < xs.length) → verdict c f (i + 1 + j) xs[j] wk.isNegative ≠ .fail := by
      constructor
      · intro h
        refine ⟨h 0 (by simp), fun j hj => ?_⟩
        have := h (j + 1) (by simpa using hj)
        simpa [Nat.add_assoc, Nat.add_comm 1 j] using this
      · rintro ⟨h0, hr⟩ j hj
        cases j with
        | zero => exact h0
        | succ j =>
          have := hr j (by simpa using hj)
          simpa [Nat.add_assoc, Nat.add_comm 1 j] using this
    rw [examineFrom]
    cases hv : verdict c f i x wk.isNegative with
    | store =>
      have hi := verdict_store c f i x _ hv
      simp only
      rw [ih { wk with d := wk.d.set i x } (i + 1) (by simpa using hlen)]
      simp only [hsplit, hv, ne_eq, reduceCtorEq, not_false_eq_true, true_and]
      congr 2
      have hn : c.n - i = (c.n - (i + 1)) + 1 := by omega
      have e1 : (wk.d.set i x).take (i + 1) = wk.d.take i ++ [x] := by
        rw [List.take_add_one, List.take_set_of_le (Nat.le_refl i)]
        simp [hlen, hi]
      have e2 : (wk.d.set i x).drop (i + 1 + xs.length) = wk.d.drop (i + (x :: xs).length) := by
        rw [List.drop_set_of_lt (by omega)]
        congr 1
        simp only [List.length_cons]; omega
      rw [hn, e1, e2]
      simp [List.take_succ_cons]
    | skip =>
      have hi := verdict_skip c f i x _ hv
      simp only
      rw [ih wk (i + 1) hlen]
      simp only [hsplit, hv, ne_eq, reduceCtorEq, not_false_eq_true, true_and]
      congr 2
      have e : c.n - i = 0 := by omega
      have e' : c.n - (i + 1) = 0 := by omega
      rw [e, e', List.take_zero, List.take_zero, List.take_of_length_le (by omega),
        List.take_of_length_le (by omega), List.drop_of_length_le (by omega),
        List.drop_of_length_le (by simp only [List.length_cons]; omega)]
    | fail =>
      rw [if_neg]
      rw [hsplit, hv]
      simp

/-- The decode of a non-empty slice, the loop taken away: nothing if some chunk fails, else the chunks that have a
destination digit with `sign_bits` above them (R111, R116, R135). -/
theorem decodeSlice_of_ne (c : Config) (src : List Byte) (e : Endian) (f : Flavour) (h : src.length ≠ 0) :
    decodeSlice c src e f
      = if ∀ j, (hj : j < (chunkDigits c src e (padByte (isNegative f (msByte src e)))).length) →
            verdict c f j (chunkDigits c src e (padByte (isNegative f (msByte src e))))[j]
              (isNegative f (msByte src e)) ≠ .fail then
          some (assemble c ((chunkDigits c src e (padByte (isNegative f (msByte src e)))).take c.n
            ++ List.replicate (c.n - (chunkDigits c src e (padByte (isNegative f (msByte src e)))).length)
                (signBits c (isNegative f (msByte src e)))))
        else none := by
  simp only [decodeSlice, h, if_false]
  rw [examineFrom_eq c f _ (initWork c src e f) 0 (by simp [initWork])]
  simp only [initWork, Nat.zero_add, List.take_zero, List.nil_append, Nat.sub_zero, List.drop_replicate]
  split
  · rename_i h1
    split at h1
    · next hc =>
      rw [if_pos hc]
      cases h1
      rfl
    · cases h1
  · rename_i h1
    split at h1
    · cases h1
    · next hc => rw [if_neg hc]

/-! Signs. -/

theorem getLsbD_top (m : Nat) (x : BitVec m) (hm : 0 < m) :
    x.getLsbD (m - 1) = decide (2 ^ m ≤ 2 * x.toNat) := by
  obtain ⟨k, rfl⟩ : ∃ k, m = k + 1 := ⟨m - 1, by omega⟩
  have hx := x.isLt
  rw [Nat.add_sub_cancel, BitVec.getLsbD, Nat.testBit, Nat.shiftRight_eq_div_pow, Nat.one_and_eq_mod_two]
  rw [Nat.pow_succ] at *
  by_cases h : 2 ^ k ≤ x.toNat
  · have h1 : x.toNat / 2 ^ k = 1 := by
      apply Nat.div_eq_of_lt_le <;> omega
    rw [h1]
    simp; omega
  · have h1 : x.toNat / 2 ^ k = 0 := Nat.div_eq_of_lt (by omega)
    rw [h1]
    simp; omega

/-- A digit read as a signed value is negative exactly from `2^(W−1)` on (R107). -/
theorem digitSign_eq (c : Config) (d : Digit c) : digitSign c d = decide (2 ^ c.w ≤ 2 * d.toNat) :=
  getLsbD_top c.w d c.w_pos

/-- The most-significant byte of a little-endian slice carries its top bit. -/
theorem msByte_le_top (src : List Byte) (h : src.length ≠ 0) :
    (msByte src .le).getLsbD 7 = decide (256 ^ src.length ≤ 2 * leNat src) := by
  have hb := getLsbD_top 8 (msByte src .le) (by decide)
  simp only [Nat.reduceSub] at hb
  rw [hb]
  have hne : src ≠ [] := by intro h0; simp [h0] at h
  have hsplit : leNat src = leNat src.dropLast + 256 ^ (src.length - 1) * (msByte src .le).toNat := by
    conv_lhs => rw [← List.dropLast_append_getLast hne]
    rw [leNat_append, List.length_dropLast, leNat_cons, leNat_nil, Nat.mul_zero, Nat.add_zero]
    simp [msByte, List.getD_eq_getElem?_getD, List.getLast_eq_getElem, Nat.sub_lt (Nat.pos_of_ne_zero h)]
  have hlow := leNat_lt src.dropLast
  rw [List.length_dropLast] at hlow
  have hpow : 256 ^ src.length = 256 * 256 ^ (src.length - 1) := by
    rw [← Nat.pow_succ', Nat.succ_eq_add_one, Nat.sub_add_cancel (Nat.pos_of_ne_zero h)]
  rw [hsplit, hpow]
  generalize 256 ^ (src.length - 1) = p at *
  generalize (msByte src .le).toNat = m at *
  generalize leNat src.dropLast = lo at *
  congr 1
  apply propext
  constructor
  · intro hm
    have : p * 128 ≤ p * m := Nat.mul_le_mul_left _ (by omega)
    omega
  · intro hm
    by_contra hcon
    have : p * m ≤ p * 127 := Nat.mul_le_mul_left _ (by omega)
    omega

theorem leNat_replicate_pad (m : Nat) (neg : Bool) :
    leNat (List.replicate m (padByte neg)) = if neg then 256 ^ m - 1 else 0 := by
  cases neg
  · simp [padByte, leNat_replicate_zero]
  · have := leNat_replicate_ff m
    simp only [padByte, if_true]
    omega

/-- A value read from the slice's chunks: their number less the weight of the sign, if negative (R113, R140). -/
theorem sliceNumber_eq_chunks (c : Config) (f : Flavour) (src : List Byte) (h : src.length ≠ 0) :
    sliceNumber .le f src
      = (digitsNat c (chunkDigits c src .le (padByte (isNegative f (msByte src .le)))) : Int)
        - (if isNegative f (msByte src .le) then
            ((2 ^ c.w) ^ (chunkDigits c src .le (padByte (isNegative f (msByte src .le)))).length : Nat)
          else 0 : Int) := by
  have hmul := length_chunkDigits_mul c src .le (padByte (isNegative f (msByte src .le)))
  rw [digitsNat_chunkDigits_le, leNat_append, leNat_replicate_pad]
  rw [c.two_pow_w, ← Nat.pow_mul, Nat.mul_comm c.bytes, hmul, Nat.pow_add]
  cases f with
  | unsigned => simp [sliceNumber, isNegative, natOf]
  | signed =>
    have htop := msByte_le_top src h
    simp only [sliceNumber, h, if_false, isNegative, natOf, signedRead]
    have hp8 : (2 : Nat) ^ (8 * src.length) = 256 ^ src.length := by rw [Nat.pow_mul]
    have hhalf : (2 : Nat) ^ (8 * src.length) = 2 * 2 ^ (8 * src.length - 1) := by
      rw [← Nat.pow_succ', Nat.succ_eq_add_one, Nat.sub_add_cancel (by omega)]
    by_cases hn : 256 ^ src.length ≤ 2 * leNat src
    · have h1 : ¬ leNat src < 2 ^ (8 * src.length - 1) := by omega
      have hpos := Nat.pow_pos (n := padLength c src.length) (show 0 < 256 by decide)
      have hp8' : (2 : Int) ^ (8 * src.length) = 256 ^ src.length := by exact_mod_cast hp8
      simp only [htop, hn, decide_true, if_true, h1, if_false]
      obtain ⟨q, hq⟩ : ∃ q, 256 ^ padLength c src.length = q + 1 := ⟨_, (Nat.sub_add_cancel hpos).symm⟩
      rw [hq, Nat.add_sub_cancel, hp8']
      push_cast
      ring
    · have h1 : leNat src < 2 ^ (8 * src.length - 1) := by omega
      simp only [htop, hn, decide_false, h1, if_true, Bool.false_eq_true, if_false, Nat.mul_zero,
        Nat.add_zero, sub_zero]

/-- A list of digits is all `sign_bits` exactly when its number is all ones, or zero. -/
theorem digitsNat_all_signBits (c : Config) (neg : Bool) (l : List (Digit c)) :
    (∀ d ∈ l, d = signBits c neg) ↔ digitsNat c l = if neg then (2 ^ c.w) ^ l.length - 1 else 0 := by
  have hpos := Nat.two_pow_pos c.w
  have hval : (signBits c neg).toNat = if neg then 2 ^ c.w - 1 else 0 := by
    cases neg
    · simp [signBits]
    · simp [signBits, toNat_allOnesDigit]
  induction l with
  | nil => simp
  | cons x xs ih =>
    have hx := x.isLt
    have hxs := digitsNat_lt c xs
    simp only [List.mem_cons, forall_eq_or_imp, ih, digitsNat_cons, List.length_cons]
    rw [← BitVec.toNat_inj, hval]
    have hq : 0 < (2 ^ c.w) ^ xs.length := Nat.pow_pos hpos
    rw [Nat.pow_succ]
    generalize (2 ^ c.w) ^ xs.length = q at *
    generalize 2 ^ c.w = B at *
    cases neg
    · simp only [Bool.false_eq_true, if_false]
      constructor
      · rintro ⟨h1, h2⟩; rw [h1, h2, Nat.mul_zero]
      · intro h
        have h1 : x.toNat = 0 := by omega
        have h2 : B * digitsNat c xs = 0 := by omega
        refine ⟨h1, ?_⟩
        rcases Nat.mul_eq_zero.1 h2 with h3 | h3
        · omega
        · exact h3
    · simp only [if_true]
      obtain ⟨q', rfl⟩ : ∃ q', q = q' + 1 := ⟨q - 1, by omega⟩
      obtain ⟨B', rfl⟩ : ∃ B', B = B' + 1 := ⟨B - 1, by omega⟩
      generalize digitsNat c xs = y at *
      generalize x.toNat = z at *
      simp only [Nat.add_sub_cancel]
      constructor
      · rintro ⟨rfl, rfl⟩
        have : (y + 1) * (z + 1) = z + (z + 1) * y + 1 := by ring
        omega
      · intro h
        have e : (q' + 1) * (B' + 1) = B' + (B' + 1) * q' + 1 := by ring
        rw [e, Nat.add_sub_cancel] at h
        by_cases hy : y = q'
        · subst hy; exact ⟨by omega, rfl⟩
        · exfalso
          have h3 : y + 1 ≤ q' := by omega
          have h4 : (B' + 1) * (y + 1) ≤ (B' + 1) * q' := Nat.mul_le_mul_left _ h3
          rw [Nat.mul_add] at h4
          omega

/-- The sign of the top digit is the top bit of the whole list (R107). -/
theorem digitSign_append (c : Config) (l : List (Digit c)) (d : Digit c) :
    digitSign c d = decide ((2 ^ c.w) ^ (l.length + 1) ≤ 2 * digitsNat c (l ++ [d])) := by
  rw [digitSign_eq, digitsNat_append]
  simp only [digitsNat_cons, digitsNat_nil, Nat.mul_zero, Nat.add_zero]
  have hl := digitsNat_lt c l
  have hB : 2 ^ c.w = 2 * 2 ^ (c.w - 1) := by
    rw [← Nat.pow_succ', Nat.succ_eq_add_one, Nat.sub_add_cancel c.w_pos]
  rw [Nat.pow_succ]
  generalize (2 ^ c.w) ^ l.length = q at *
  rw [hB]
  congr 1
  apply propext
  generalize 2 ^ (c.w - 1) = H at *
  generalize d.toNat = y at *
  generalize digitsNat c l = lo at *
  constructor
  · intro h
    have : q * H ≤ q * y := Nat.mul_le_mul_left _ (by omega)
    have e : q * (2 * H) = 2 * (q * H) := by ring
    omega
  · intro h
    by_contra hcon
    have : q * (y + 1) ≤ q * H := Nat.mul_le_mul_left _ (by omega)
    rw [Nat.mul_add] at this
    have e : q * (2 * H) = 2 * (q * H) := by ring
    omega

/-- The represented sign is the top bit of the chunks (R117). -/
theorem isNegative_eq_chunks (c : Config) (src : List Byte) (h : src.length ≠ 0) :
    isNegative .signed (msByte src .le)
      = decide ((2 ^ c.w) ^ (chunkDigits c src .le (padByte (isNegative .signed (msByte src .le)))).length
          ≤ 2 * digitsNat c (chunkDigits c src .le (padByte (isNegative .signed (msByte src .le))))) := by
  have hmul := length_chunkDigits_mul c src .le (padByte (isNegative .signed (msByte src .le)))
  rw [digitsNat_chunkDigits_le, c.two_pow_w, ← Nat.pow_mul, Nat.mul_comm c.bytes, hmul]
  have hl : (src ++ List.replicate (padLength c src.length) (padByte (isNegative .signed (msByte src .le)))).length
      = src.length + padLength c src.length := by simp
  have key := msByte_le_top (src ++ List.replicate (padLength c src.length)
    (padByte (isNegative .signed (msByte src .le)))) (by rw [hl]; omega)
  rw [hl] at key
  rw [← key]
  generalize padLength c src.length = m
  cases m with
  | zero => simp [isNegative]
  | succ m =>
    have : msByte (src ++ List.replicate (m + 1) (padByte (isNegative .signed (msByte src .le)))) .le
        = padByte (isNegative .signed (msByte src .le)) := by
      simp only [msByte, List.getD_eq_getElem?_getD, List.length_append, List.length_replicate]
      rw [List.getElem?_append_right (by omega), List.getElem?_replicate, if_pos (by omega)]
      rfl
    rw [this]
    cases isNegative .signed (msByte src .le) <;> rfl

/-- A number and the pattern it is congruent to. -/
theorem ofInt_eq_ofNat (m r : Nat) (v q : Int) (h : v = r + 2 ^ m * q) :
    BitVec.ofInt m v = BitVec.ofNat m r := by
  apply BitVec.eq_of_toNat_eq
  rw [BitVec.toNat_ofInt, BitVec.toNat_ofNat, h]
  have : ((2 ^ m : Nat) : Int) = 2 ^ m := by push_cast; rfl
  rw [this, Int.add_mul_emod_self_left]
  have e : ((r : Int) % 2 ^ m) = ((r % 2 ^ m : Nat) : Int) := by push_cast; rfl
  rw [e, Int.toNat_natCast]

/-- No verdict is `FAIL` exactly when the top chunk's sign is right (signed only) and all filler is `sign_bits`
(R114, R115). -/
theorem noFail_iff (c : Config) (hn : 1 ≤ c.n) (f : Flavour) (neg : Bool) (hf : f = .unsigned → neg = false)
    (ds : List (Digit c)) :
    (∀ j, (hj : j < ds.length) → verdict c f j ds[j] neg ≠ .fail) ↔
      (f = .signed → (h' : c.n - 1 < ds.length) → digitSign c (ds[c.n - 1]) = neg) ∧
        ∀ d ∈ ds.drop c.n, d = signBits c neg := by
  constructor
  · intro hall
    constructor
    · rintro rfl h'
      have := hall (c.n - 1) h'
      simp only [verdict] at this
      rw [if_neg (by omega), if_pos (by omega)] at this
      by_contra hcon
      rw [if_neg hcon] at this
      exact this rfl
    · intro d hd
      obtain ⟨j, hj, rfl⟩ := List.getElem_of_mem hd
      rw [List.length_drop] at hj
      rw [List.getElem_drop]
      have := hall (c.n + j) (by omega)
      by_contra hcon
      apply this
      cases f
      · have := hf rfl
        subst this
        simp only [verdict]
        rw [if_neg (by omega), if_neg (show ¬ _ = zeroDigit c from hcon)]
      · simp only [verdict]
        rw [if_neg (by omega), if_neg (by omega), if_neg hcon]
  · rintro ⟨h1, h2⟩ j hj
    have hmem : c.n ≤ j → ds[j] = signBits c neg := by
      intro hle
      apply h2
      rw [List.mem_iff_getElem]
      refine ⟨j - c.n, by rw [List.length_drop]; omega, ?_⟩
      rw [List.getElem_drop]
      congr 1; omega
    cases f
    · have := hf rfl
      subst this
      simp only [verdict]
      split
      · simp
      · rw [if_pos (show _ = zeroDigit c from hmem (by omega))]; simp
    · simp only [verdict]
      split
      · simp
      · split
        · have hjj : j = c.n - 1 := by omega
          subst hjj
          rw [if_pos (h1 rfl hj)]; simp
        · rw [if_pos (hmem (by omega))]; simp

end Sys2Proof.Machine
end

