-- ==== Sys2Proof/Laws/Exec.lean ====
section
/-! SUPPORT. Each family's command is one completed response (R82), and what `exec` and `step` can do. -/

namespace Sys2Proof.Machine

/-- A slice command completes with `ILLEGAL` or with the decode's outcome (R87, R143). -/
theorem sliceCommand_eq (e : Endian) (f : Flavour) (s : State) :
    sliceCommand e f s
      = respond s (if s.cfg.lengthOk (sliceLength s) then
          sliceResponse s.cfg (decodeSlice s.cfg (sliceOperand s) e f)
        else failure s.cfg .illegal) := by
  unfold sliceCommand illegal
  split <;> rfl

/-- The response of a command, chosen by its fields (R82). -/
def commandResponse (s : State) (i : Instr) : Outputs s.cfg :=
  match i.fields with
  | (_, .fromBytes, o) => valueResult s.cfg (fromBytes s.cfg (arrayOperand s) (resolve s.cfg o))
  | (_, .toBytes, o) => bytesResult s.cfg (toBytes s.cfg (valueOperand s) (resolve s.cfg o))
  | (f, .fromSlice, o) =>
    if s.cfg.lengthOk (sliceLength s) then
      sliceResponse s.cfg (decodeSlice s.cfg (sliceOperand s) (resolve s.cfg o) f)
    else failure s.cfg .illegal
  | (_, .toOrder, o) => valueResult s.cfg (toOrder s.cfg (resolve s.cfg o) (valueOperand s))
  | (_, .fromOrder, o) => valueResult s.cfg (toOrder s.cfg (resolve s.cfg o) (valueOperand s))

/-- Every command completes with the response its fields choose. -/
theorem exec_eq_respond (i : Instr) (s : State) : exec i s = respond s (commandResponse s i) := by
  cases i <;> first | rfl | exact sliceCommand_eq _ _ s

/-- All that a command can do when it answers a next state. -/
theorem exec_next {i : Instr} {s t : State} (h : exec i s = .next t) :
    s.cfg.wf = true ∧ t = s.drive (commandResponse s i) :=
  respond_next (by rw [← exec_eq_respond]; exact h)

theorem exec_of_wf (i : Instr) {s : State} (h : s.cfg.wf = true) :
    exec i s = .next (s.drive (commandResponse s i)) := by
  rw [exec_eq_respond, respond_of_wf h]

theorem step_of_decode {s : State} {i : Instr} (h : decode s.inp.cmd = .ok i) : step s = exec i s := by
  simp [step, h]

theorem step_of_reject {s : State} {r : Reject} (h : decode s.inp.cmd = .error r) :
    step s = illegal s := by
  simp [step, h]

/-- All that a step can do when it answers a next state: run the decoded command, or give `ILLEGAL` for a reserved
word. -/
theorem step_next {s t : State} (h : step s = .next t) :
    s.cfg.wf = true ∧
      ((∃ i, decode s.inp.cmd = .ok i ∧ t = s.drive (commandResponse s i)) ∨
        (∃ r, decode s.inp.cmd = .error r ∧ t = s.drive (failure s.cfg .illegal))) := by
  cases hd : decode s.inp.cmd with
  | ok i =>
    rw [step_of_decode hd] at h
    obtain ⟨hw, rfl⟩ := exec_next h
    exact ⟨hw, .inl ⟨i, rfl, rfl⟩⟩
  | error r =>
    rw [step_of_reject hd] at h
    obtain ⟨hw, rfl⟩ := respond_next h
    exact ⟨hw, .inr ⟨r, rfl, rfl⟩⟩

end Sys2Proof.Machine
end

