-- ==== Sys2Proof/Laws/PerInstr.lean ====
section
/-! SUPPORT. One lemma per command: its word decodes back to it, and the word's three bit fields are the command's
own (30_encoding.md R71, R77 to R79, R83). -/

namespace Sys2Proof.Laws.RoundTrip

/-- The command survives encoding and its fields stand where CMD6 puts them. -/
def Statement (i : Instr) : Prop :=
  decode (encode i) = .ok i ∧ flavourOf (encode i) = i.fields.1 ∧ familyOf (encode i) = some i.fields.2.1 ∧
    orderOf (encode i) = some i.fields.2.2

theorem uintFromBeBytes : Statement .uintFromBeBytes := by unfold Statement; decide

theorem uintFromLeBytes : Statement .uintFromLeBytes := by unfold Statement; decide

theorem uintFromNeBytes : Statement .uintFromNeBytes := by unfold Statement; decide

theorem uintToBeBytes : Statement .uintToBeBytes := by unfold Statement; decide

theorem uintToLeBytes : Statement .uintToLeBytes := by unfold Statement; decide

theorem uintToNeBytes : Statement .uintToNeBytes := by unfold Statement; decide

theorem uintFromBeSlice : Statement .uintFromBeSlice := by unfold Statement; decide

theorem uintFromLeSlice : Statement .uintFromLeSlice := by unfold Statement; decide

theorem uintToBe : Statement .uintToBe := by unfold Statement; decide

theorem uintToLe : Statement .uintToLe := by unfold Statement; decide

theorem uintFromBe : Statement .uintFromBe := by unfold Statement; decide

theorem uintFromLe : Statement .uintFromLe := by unfold Statement; decide

theorem intFromBeBytes : Statement .intFromBeBytes := by unfold Statement; decide

theorem intFromLeBytes : Statement .intFromLeBytes := by unfold Statement; decide

theorem intFromNeBytes : Statement .intFromNeBytes := by unfold Statement; decide

theorem intToBeBytes : Statement .intToBeBytes := by unfold Statement; decide

theorem intToLeBytes : Statement .intToLeBytes := by unfold Statement; decide

theorem intToNeBytes : Statement .intToNeBytes := by unfold Statement; decide

theorem intFromBeSlice : Statement .intFromBeSlice := by unfold Statement; decide

theorem intFromLeSlice : Statement .intFromLeSlice := by unfold Statement; decide

theorem intToBe : Statement .intToBe := by unfold Statement; decide

theorem intToLe : Statement .intToLe := by unfold Statement; decide

theorem intFromBe : Statement .intFromBe := by unfold Statement; decide

theorem intFromLe : Statement .intFromLe := by unfold Statement; decide

end Sys2Proof.Laws.RoundTrip
end

