-- ==== Sys2Proof/Tests/Slice0.lean ====
section
/-! SUPPORT. The model's own tests. Every expected value is from spec/: an E, S, A, X or Q number is a row of
95_test_vectors.md, a rule number the worked example of that rule. The witness theorems show, for each obligation with
hypotheses, operands that meet them, at the boundaries of each clause. -/

namespace Sys2Proof.Tests

open Sys2Proof.Machine

/-- A block with a request on its ports; the outputs hold a stale refusal, which no result may depend on. -/
def mk (k n : Nat) (native : Endian) (lmax : Nat) (cmd : CmdWord) (val : Nat) (bytes : List Byte) (len : Nat) : State :=
  { cfg := { k := k, n := n, native := native, lmax := lmax }
    inp := { cmd := cmd, valIn := BitVec.ofNat _ val, bytesIn := BitVec.ofNat _ (leNat bytes), lenIn := BitVec.ofNat _ len }
    out := { valOut := 0, bytesOut := 0, status := .illegal } }

/-- The value on `val_out` after one step that answers `OK` with `bytes_out` all-zero. -/
def valueSeen (s : State) : Option Nat :=
  match step s with
  | .next t => if t.out.status = .ok ∧ t.out.bytesOut = 0 then some t.out.valOut.toNat else none
  | _ => none

/-- The array on `bytes_out` after one step that answers `OK` with `val_out` all-zero. -/
def arraySeen (s : State) : Option (List Byte) :=
  match step s with
  | .next t => if t.out.status = .ok ∧ t.out.valOut = 0 then some (lanes t.out.bytesOut t.cfg.total) else none
  | _ => none

/-- The status after one step that leaves both result buses all-zero. -/
def failureSeen (s : State) : Option Status :=
  match step s with
  | .next t => if t.out.valOut = 0 ∧ t.out.bytesOut = 0 then some t.out.status else none
  | _ => none

/-- The refusal of one step. -/
def refusalSeen (s : State) : Option Refusal :=
  match step s with
  | .refused r => some r
  | _ => none

/-! Well-formedness: one ill-formed term for each check. -/

theorem test_no_digits_is_refused : Config.digitCountOk ⟨0, 0, .le, 4⟩ = false := by decide

theorem test_one_digit_is_accepted : Config.digitCountOk ⟨0, 1, .le, 4⟩ = true := by decide

theorem test_narrow_port_is_refused : Config.portOk ⟨1, 2, .le, 3⟩ = false := by decide

theorem test_exact_port_is_accepted : Config.portOk ⟨1, 2, .le, 4⟩ = true := by decide

theorem test_ill_formed_parameters_are_refused :
    Config.wf ⟨0, 0, .le, 4⟩ = false ∧ Config.wf ⟨1, 2, .le, 3⟩ = false ∧ Config.wf ⟨1, 2, .le, 4⟩ = true := by decide

theorem test_long_length_is_refused :
    Config.lengthOk ⟨0, 2, .le, 4⟩ 5 = false ∧ Config.lengthOk ⟨0, 2, .le, 4⟩ 4 = true := by decide

theorem test_step_refuses_no_digits : refusalSeen (mk 0 0 .le 4 0x00 0 [] 0) = some .notAnInstance := by decide

theorem test_step_refuses_narrow_port : refusalSeen (mk 1 2 .le 3 0x24 0 [] 0) = some .notAnInstance := by decide

/-! Decoding: every constructor, by a word written out from R77 to R79 and R83. -/

theorem test_decode_from_bytes :
    decode 0b000000#6 = .ok .uintFromBeBytes ∧ decode 0b000001#6 = .ok .uintFromLeBytes ∧
    decode 0b000010#6 = .ok .uintFromNeBytes ∧ decode 0b100000#6 = .ok .intFromBeBytes ∧
    decode 0b100001#6 = .ok .intFromLeBytes ∧ decode 0b100010#6 = .ok .intFromNeBytes := by decide

theorem test_decode_to_bytes :
    decode 0b000100#6 = .ok .uintToBeBytes ∧ decode 0b000101#6 = .ok .uintToLeBytes ∧
    decode 0b000110#6 = .ok .uintToNeBytes ∧ decode 0b100100#6 = .ok .intToBeBytes ∧
    decode 0b100101#6 = .ok .intToLeBytes ∧ decode 0b100110#6 = .ok .intToNeBytes := by decide

theorem test_decode_from_slice :
    decode 0b001000#6 = .ok .uintFromBeSlice ∧ decode 0b001001#6 = .ok .uintFromLeSlice ∧
    decode 0b101000#6 = .ok .intFromBeSlice ∧ decode 0b101001#6 = .ok .intFromLeSlice := by decide

theorem test_decode_to_order :
    decode 0b001100#6 = .ok .uintToBe ∧ decode 0b001101#6 = .ok .uintToLe ∧
    decode 0b101100#6 = .ok .intToBe ∧ decode 0b101101#6 = .ok .intToLe := by decide

theorem test_decode_from_order :
    decode 0b010000#6 = .ok .uintFromBe ∧ decode 0b010001#6 = .ok .uintFromLe ∧
    decode 0b110000#6 = .ok .intFromBe ∧ decode 0b110001#6 = .ok .intFromLe := by decide

/-- R78, R79, R80: each way of being reserved, by name. -/
theorem test_decode_reserved :
    decode 0b000011#6 = .error .reservedOrder ∧ decode 0b110011#6 = .error .reservedOrder ∧
    decode 0b001010#6 = .error .nativeNotDefined ∧ decode 0b101110#6 = .error .nativeNotDefined ∧
    decode 0b010010#6 = .error .nativeNotDefined ∧ decode 0b010100#6 = .error .reservedFamily ∧
    decode 0b011011#6 = .error .reservedFamily ∧ decode 0b111111#6 = .error .reservedFamily := by decide

theorem test_table_word : decodeTableWord 8 0x31 = some .intFromLe ∧ decodeTableWord 8 0x3F = none ∧
    decodeTableWord 8 0x40 = none := by decide

/-! The sub-units. -/

/-- Q11, Q12, Q13. -/
theorem test_bswap : bswap ⟨1, 1, .le, 2⟩ 0x1234#_ = 0x3412#_ ∧ bswap ⟨2, 1, .le, 4⟩ 0x12345678#_ = 0x78563412#_ ∧
    bswap ⟨0, 1, .le, 1⟩ 0xA5#_ = 0xA5#_ := by decide

/-- Q20, Q22. -/
theorem test_pad_chunk : padChunk ⟨2, 1, .le, 4⟩ [0x03, 0x02, 0x81] .le (padByte true) = 0xFF810203#_ ∧
    padChunk ⟨1, 1, .le, 2⟩ [0x7F] .le (padByte false) = 0x007F#_ := by decide

/-- Q25 to Q28, Q30, Q32. -/
theorem test_verdict_signed :
    verdict ⟨0, 2, .le, 4⟩ .signed 1 0x7F#_ false = .store ∧ verdict ⟨0, 2, .le, 4⟩ .signed 1 0x80#_ false = .fail ∧
    verdict ⟨0, 2, .le, 4⟩ .signed 1 0x80#_ true = .store ∧ verdict ⟨0, 2, .le, 4⟩ .signed 1 0x7F#_ true = .fail ∧
    verdict ⟨0, 2, .le, 4⟩ .signed 2 0x01#_ false = .fail ∧ verdict ⟨0, 2, .le, 4⟩ .signed 2 0xFE#_ true = .fail := by
  decide

/-- Q37 to Q39. -/
theorem test_verdict_unsigned :
    verdict ⟨0, 2, .le, 4⟩ .unsigned 1 0xFF#_ false = .store ∧ verdict ⟨0, 2, .le, 4⟩ .unsigned 2 0x00#_ false = .skip ∧
    verdict ⟨0, 2, .le, 4⟩ .unsigned 2 0xFF#_ false = .fail := by decide

/-! Array to value. The unread ports hold other values. -/

/-- A25, with lanes beyond the array in use. -/
theorem test_uint_from_be_bytes : valueSeen (mk 0 2 .le 4 0x00 0x1234 [0xFF, 0xFE, 0x55, 0xAA] 1) = some 0xFFFE := by
  decide

/-- A33. -/
theorem test_uint_from_le_bytes : valueSeen (mk 1 1 .be 2 0x01 0x1234 [0xFF, 0xFE] 0) = some 0xFEFF := by decide

/-- A30. -/
theorem test_uint_from_ne_bytes_be : valueSeen (mk 1 2 .be 4 0x02 0 [0x12, 0x34, 0x56, 0x78] 0) = some 0x12345678 := by
  decide

/-- A31. -/
theorem test_uint_from_ne_bytes_le : valueSeen (mk 1 2 .le 4 0x02 0 [0x12, 0x34, 0x56, 0x78] 0) = some 0x78563412 := by
  decide

/-- A28. -/
theorem test_int_from_be_bytes : valueSeen (mk 1 2 .le 4 0x20 0 [0xFF, 0xFF, 0xFF, 0xFE] 7) = some 0xFFFFFFFE := by decide

/-- A24. -/
theorem test_int_from_le_bytes : valueSeen (mk 0 2 .be 4 0x21 0 [0xFF, 0xFE] 0) = some 0xFEFF := by decide

/-- R165, R167: the bytes of A30, A31 in the signed flavour. -/
theorem test_int_from_ne_bytes : valueSeen (mk 1 2 .be 4 0x22 0 [0x12, 0x34, 0x56, 0x78] 0) = some 0x12345678 ∧
    valueSeen (mk 1 2 .le 4 0x22 0 [0x12, 0x34, 0x56, 0x78] 0) = some 0x78563412 := by decide

/-! Value to array. -/

/-- A10. -/
theorem test_uint_to_be_bytes : arraySeen (mk 1 2 .le 4 0x04 0x12345678 [0xAA] 3) = some [0x12, 0x34, 0x56, 0x78] := by
  decide

/-- A11. -/
theorem test_uint_to_le_bytes : arraySeen (mk 1 2 .be 4 0x05 0x12345678 [0xAA] 3) = some [0x78, 0x56, 0x34, 0x12] := by
  decide

/-- A12. -/
theorem test_uint_to_ne_bytes_le : arraySeen (mk 1 2 .le 4 0x06 0x12345678 [] 0) = some [0x78, 0x56, 0x34, 0x12] := by
  decide

/-- A13. -/
theorem test_uint_to_ne_bytes_be : arraySeen (mk 1 2 .be 4 0x06 0x12345678 [] 0) = some [0x12, 0x34, 0x56, 0x78] := by
  decide

/-- A5. -/
theorem test_int_to_be_bytes : arraySeen (mk 0 2 .le 4 0x24 0x8000 [] 0) = some [0x80, 0x00] := by decide

/-- A6. -/
theorem test_int_to_le_bytes : arraySeen (mk 0 2 .be 4 0x25 0x8000 [] 0) = some [0x00, 0x80] := by decide

/-- R162, R167: the value of A12, A13 in the signed flavour. -/
theorem test_int_to_ne_bytes : arraySeen (mk 1 2 .le 4 0x26 0x12345678 [] 0) = some [0x78, 0x56, 0x34, 0x12] ∧
    arraySeen (mk 1 2 .be 4 0x26 0x12345678 [] 0) = some [0x12, 0x34, 0x56, 0x78] := by decide

/-! Slice decode. -/

/-- S36. -/
theorem test_int_from_be_slice_partial :
    valueSeen (mk 2 2 .le 16 0x28 5 [0x80, 0x01, 0x02, 0x03, 0x04, 0x99] 5) = some 0xFFFFFF8001020304 := by decide

/-- S14. -/
theorem test_int_from_be_slice_overflow :
    failureSeen (mk 0 2 .le 4 0x28 5 [0x00, 0xFF, 0xFE] 3) = some .overflow := by decide

/-- S37. -/
theorem test_int_from_le_slice_partial :
    valueSeen (mk 2 2 .be 16 0x29 5 [0x04, 0x03, 0x02, 0x01, 0x80, 0x99] 5) = some 0xFFFFFF8001020304 := by decide

/-- S18. -/
theorem test_int_from_le_slice_overflow :
    failureSeen (mk 0 2 .le 4 0x29 5 [0xFE, 0xFF, 0x00] 3) = some .overflow := by decide

/-- S49. -/
theorem test_uint_from_be_slice_long : valueSeen (mk 0 2 .le 4 0x08 5 [0x00, 0xFF, 0xFE] 3) = some 0xFFFE := by decide

/-- S51. -/
theorem test_uint_from_be_slice_overflow :
    failureSeen (mk 0 2 .le 4 0x08 5 [0xFF, 0xFF, 0xFE] 3) = some .overflow := by decide

/-- S31. -/
theorem test_uint_from_le_slice_long : valueSeen (mk 1 1 .le 4 0x09 5 [0x34, 0x12, 0x00] 3) = some 0x1234 := by decide

/-- S32. -/
theorem test_uint_from_le_slice_overflow :
    failureSeen (mk 1 1 .le 4 0x09 5 [0x34, 0x12, 0x01] 3) = some .overflow := by decide

/-- E1, E5. -/
theorem test_slice_short_and_empty : valueSeen (mk 0 2 .le 4 0x28 5 [0xFE] 1) = some 0xFFFE ∧
    valueSeen (mk 0 2 .le 4 0x28 5 [0xFE] 0) = some 0 := by decide

/-- R87: `LMAX = 4`, `len_in = 5`, and `ILLEGAL` before `OVERFLOW` (R207). -/
theorem test_slice_longer_than_the_port :
    failureSeen (mk 0 2 .le 4 0x28 5 [0x00, 0xFF, 0xFE] 5) = some .illegal := by decide

/-- R80. -/
theorem test_reserved_word : failureSeen (mk 0 2 .le 4 0x0A 5 [0x00, 0xFF, 0xFE] 3) = some .illegal := by decide

/-! Whole-value reinterpretation. -/

/-- X1, X2. -/
theorem test_uint_to_be : valueSeen (mk 1 2 .le 4 0x0C 0x12345678 [0xAA] 3) = some 0x78563412 ∧
    valueSeen (mk 1 2 .be 4 0x0C 0x12345678 [] 0) = some 0x12345678 := by decide

/-- X3, X4. -/
theorem test_uint_to_le : valueSeen (mk 1 2 .le 4 0x0D 0x12345678 [] 0) = some 0x12345678 ∧
    valueSeen (mk 1 2 .be 4 0x0D 0x12345678 [] 0) = some 0x78563412 := by decide

/-- X5. -/
theorem test_uint_from_be : valueSeen (mk 1 2 .le 4 0x10 0x12345678 [] 0) = some 0x78563412 := by decide

/-- X6. -/
theorem test_uint_from_le : valueSeen (mk 1 2 .be 4 0x11 0x12345678 [] 0) = some 0x78563412 := by decide

/-- X10. -/
theorem test_int_to_be : valueSeen (mk 0 3 .le 4 0x2C 0x0102FF [] 0) = some 0xFF0201 := by decide

/-- X11, and the value of X10 under the other order. -/
theorem test_int_to_le : valueSeen (mk 0 3 .le 4 0x2D 0x0102FF [] 0) = some 0x0102FF ∧
    valueSeen (mk 0 3 .be 4 0x2D 0x0102FF [] 0) = some 0xFF0201 := by decide

/-- R183, R187: X5 in the signed flavour. -/
theorem test_int_from_be : valueSeen (mk 1 2 .le 4 0x30 0x12345678 [] 0) = some 0x78563412 ∧
    valueSeen (mk 1 2 .be 4 0x30 0x12345678 [] 0) = some 0x12345678 := by decide

/-- R184, R187: X6 in the signed flavour. -/
theorem test_int_from_le : valueSeen (mk 1 2 .be 4 0x31 0x12345678 [] 0) = some 0x78563412 ∧
    valueSeen (mk 1 2 .le 4 0x31 0x12345678 [] 0) = some 0x12345678 := by decide

/-! The host's questions, on one word. -/

theorem test_fetch_word_runs_first :
    valueSeen (State.reset.withFetchWord 8 0x28) = some 0 ∧
    (State.reset.withFetchWord 8 0x28).inp.cmd = 0x28#6 := by decide

/-! Witnesses: operands that meet the hypotheses of each obligation, clause by clause. `blk` is `W = 16, N = 2,
LMAX = 5`, so that `len_in` carries lengths beyond the port. -/

/-- The parameters most witnesses use. -/
def blk : Config := { k := 1, n := 2, native := .le, lmax := 5 }

/-- A state of `blk` with a slice on the byte port. -/
def blkState (cmd : CmdWord) (bytes : List Byte) (len : Nat) : State := mk 1 2 .le 5 cmd 0x12345678 bytes len

theorem witness_DecodeAndEncodeAgree : decode 0x31#6 = .ok .intFromLe ∧ encode .intFromLe = 0x31#6 := by decide

theorem witness_ReservedWordsGiveIllegal :
    (blkState 0x03 [] 0).cfg.wf = true ∧ (blkState 0x03 [] 0).inp.cmd = 0x03#6 ∧
    (blkState 0x3F [] 0).cfg.wf = true ∧ (blkState 0x3F [] 0).inp.cmd = 0x1F#6 + 0x20#6 := by decide

theorem witness_StepRunsTheDecodedCommand :
    decode (blkState 0x00 [] 0).inp.cmd = .ok .uintFromBeBytes ∧ decode (blkState 0x31 [] 0).inp.cmd = .ok .intFromLe := by
  decide

theorem witness_PresentedWordIsRunNext :
    decodeTableWord 8 0x00 = some .uintFromBeBytes ∧ decodeTableWord 8 0x31 = some .intFromLe := by decide

theorem witness_OperationsDriveOnlyTheOutputs :
    (∃ t, exec .intToBe (blkState 0x2C [] 0) = .next t) ∧ (∃ t, step (blkState 0x2C [] 0) = .next t) ∧
    (∃ t, step (blkState 0x3F [] 0) = .next t) := ⟨⟨_, rfl⟩, ⟨_, rfl⟩, ⟨_, rfl⟩⟩

theorem witness_EveryCommandCompletes :
    (blkState 0x28 [0x80] 5).cfg.wf = true ∧ Instr.isSlice .intFromBeSlice = true ∧
    sliceLength (blkState 0x28 [0x80] 5) = (blkState 0x28 [0x80] 5).cfg.lmax ∧ Instr.isSlice .intToBe = false := by decide

theorem witness_ParametersThatMakeNoBlockAreRefused :
    (mk 1 0 .le 4 0x00 0 [] 0).cfg.n = 0 ∧
    (mk 1 2 .le 3 0x00 0 [] 0).cfg.lmax < (mk 1 2 .le 3 0x00 0 [] 0).cfg.n * (mk 1 2 .le 3 0x00 0 [] 0).cfg.bytes := by
  decide

/-- A state that keeps the port contract with a refusal on its outputs, and its step. -/
theorem witness_EveryStepKeepsThePortContract :
    PortContract (blkState 0x3F [] 0) ∧ ∃ t, step (blkState 0x3F [] 0) = .next t := by
  refine ⟨⟨by decide, fun _ => ⟨rfl, rfl⟩, fun h => absurd rfl h, fun h => ?_, ⟨fun _ => .inl ⟨.reservedFamily, by decide⟩, fun _ => rfl⟩⟩, ⟨_, rfl⟩⟩
  exact absurd h (by decide)

theorem witness_EveryStepComputesTheClosedForms : (blkState 0x28 [0x80] 3).cfg.wf = true := by decide

theorem witness_StepsForgetEarlierResults : ∃ t, step (blkState 0x28 [0x80] 3) = .next t := ⟨_, rfl⟩

/-- A request to `blk`. -/
def blkInputs (cmd : CmdWord) (val : Nat) (bytes : List Byte) (len : Nat) : Inputs blk :=
  { cmd := cmd, valIn := BitVec.ofNat _ val, bytesIn := BitVec.ofNat _ (leNat bytes), lenIn := BitVec.ofNat _ len }

/-- Pairs of requests that differ in every port and lane the family does not read, one family at a time. -/
theorem witness_IgnoredPortsDoNotMatter :
    blk.wf = true ∧
    (Instr.fields .intFromBeBytes = (.signed, .fromBytes, .be) ∧
      ∀ j, j < blk.total → byteAt (blkInputs 0 1 [1, 2, 3, 4, 5] 0).bytesIn j
        = byteAt (blkInputs 1 2 [1, 2, 3, 4, 9] 7).bytesIn j) ∧
    (Instr.fields .intToBeBytes = (.signed, .toBytes, .be) ∧
      (blkInputs 0 1 [1] 0).valIn = (blkInputs 1 1 [2] 1).valIn) ∧
    (Instr.fields .intFromBeSlice = (.signed, .fromSlice, .be) ∧
      (blkInputs 0 1 [1, 2, 3] 2).lenIn = (blkInputs 1 2 [1, 2, 4] 2).lenIn ∧
      ∀ j, j < (blkInputs 0 1 [1, 2, 3] 2).lenIn.toNat → byteAt (blkInputs 0 1 [1, 2, 3] 2).bytesIn j
        = byteAt (blkInputs 1 2 [1, 2, 4] 2).bytesIn j) ∧
    (Instr.fields .intToBe = (.signed, .toOrder, .be) ∧ Instr.fields .intFromBe = (.signed, .fromOrder, .be) ∧
      (blkInputs 0 1 [1] 0).valIn = (blkInputs 1 1 [2] 1).valIn) := by decide

theorem witness_NativeOrderMattersOnlyWhereItIsRead :
    Instr.fields .intFromBeSlice = (.signed, .fromSlice, .be) ∧
    (mk 1 2 .le 5 0x28 7 [1, 2] 2).cfg.wf = true ∧
    (mk 1 2 .be 5 0x28 7 [1, 2] 2).cfg.k = (mk 1 2 .le 5 0x28 7 [1, 2] 2).cfg.k ∧
    (mk 1 2 .be 5 0x28 7 [1, 2] 2).cfg.n = (mk 1 2 .le 5 0x28 7 [1, 2] 2).cfg.n ∧
    (mk 1 2 .be 5 0x28 7 [1, 2] 2).cfg.lmax = (mk 1 2 .le 5 0x28 7 [1, 2] 2).cfg.lmax ∧
    (mk 1 2 .be 5 0x28 7 [1, 2] 2).inp.valIn.toNat = (mk 1 2 .le 5 0x28 7 [1, 2] 2).inp.valIn.toNat ∧
    (mk 1 2 .be 5 0x28 7 [1, 2] 2).inp.bytesIn.toNat = (mk 1 2 .le 5 0x28 7 [1, 2] 2).inp.bytesIn.toNat ∧
    (mk 1 2 .be 5 0x28 7 [1, 2] 2).inp.lenIn.toNat = (mk 1 2 .le 5 0x28 7 [1, 2] 2).inp.lenIn.toNat := by decide

theorem witness_FlavourMattersOnlyForSlices :
    Instr.fields .intToBe = (.signed, Instr.fields .uintToBe |>.2) ∧ Instr.isSlice .intToBe = false := by decide

theorem witness_SliceLengthAboveThePortIsIllegal :
    (blkState 0x28 [0x80] 6).cfg.wf = true ∧ Instr.isSlice .intFromBeSlice = true ∧
    (blkState 0x28 [0x80] 6).cfg.lmax < sliceLength (blkState 0x28 [0x80] 6) ∧ blk.wf = true ∧
    Instr.isSlice .intFromBeBytes = false := by decide

/-- S14 raises `OVERFLOW`; the hypotheses of both clauses. -/
theorem witness_OverflowExactlyWhenTheNumberDoesNotFit :
    (mk 0 2 .le 4 0x28 5 [0x00, 0xFF, 0xFE] 3).cfg.wf = true ∧
    ∃ t, exec .intFromBeSlice (mk 0 2 .le 4 0x28 5 [0x00, 0xFF, 0xFE] 3) = .next t ∧ t.out.status = .overflow :=
  ⟨by decide, _, rfl, rfl⟩

theorem witness_DigitToBytesLayout : 0 < blk.bytes ∧ 1 < blk.bytes := by decide

theorem witness_DigitToBytesLaws : Config.w ⟨0, 2, .le, 4⟩ = 8 := by decide

theorem witness_BytesToDigitReadsTheNumber : ([0xFF, 0xFE] : List Byte).length = blk.bytes := by decide

theorem witness_DigitConversionsAreInverse :
    ([0xFF, 0xFE] : List Byte).length = blk.bytes ∧ 0 < blk.bytes ∧ 1 < blk.bytes ∧ Config.w ⟨0, 2, .le, 4⟩ = 8 := by
  decide

theorem witness_SignExtensionLogic : ([0x80] : List Byte) ≠ [] := by decide

/-- Part lengths 1 and `BYTES − 1`, and `BYTES = 1`. -/
theorem witness_PartialChunkIsPadded :
    1 ≤ ([0xFE] : List Byte).length ∧ ([0xFE] : List Byte).length < Config.bytes ⟨2, 1, .le, 4⟩ ∧
    ([0x01, 0x02, 0x03] : List Byte).length + 1 = Config.bytes ⟨2, 1, .le, 4⟩ ∧ Config.bytes ⟨0, 1, .le, 4⟩ = 1 := by
  decide

/-- Below, at and above the top digit; both signs of the top chunk; filler equal and unequal; `N = 1`. -/
theorem witness_SignedVerdict :
    1 ≤ blk.n ∧ 0 < blk.n - 1 ∧ 1 = blk.n - 1 ∧ blk.n ≤ 2 ∧
    (0x8000#_ : Digit blk).getLsbD (blk.w - 1) = true ∧ (0x7FFF#_ : Digit blk).getLsbD (blk.w - 1) ≠ true ∧
    (0xFFFF#_ : Digit blk) = signBits blk true ∧ (0xFFFE#_ : Digit blk) ≠ signBits blk true ∧
    Config.n ⟨1, 1, .le, 4⟩ = 1 := by decide

theorem witness_UnsignedVerdict :
    1 < blk.n ∧ blk.n ≤ 2 ∧ (0#_ : Digit blk) = zeroDigit blk ∧ (1#_ : Digit blk) ≠ zeroDigit blk := by decide

/-- The last full chunk and the partial chunk of a three-byte slice. -/
theorem witness_ChunksCutTheSliceFromItsLeastSignificantEnd :
    (chunkDigits blk [0xFF, 0x12, 0x34] .be 0xFF)[0]? = some 0x1234#_ ∧
    (chunkDigits blk [0xFF, 0x12, 0x34] .be 0xFF)[1]? = some 0xFFFF#_ ∧ 0 < blk.bytes ∧ 1 < blk.bytes := by decide

theorem witness_SliceDecodeIsTheNumberIfItFits : 1 ≤ blk.n ∧ 1 ≤ Config.n ⟨0, 1, .be, 1⟩ := by decide

/-- One chunk, and as many chunks as digits. -/
theorem witness_SignExtensionKeepsTheNumber :
    1 ≤ blk.n ∧ ([0x80] : List Byte) ≠ [] ∧
    (chunkDigits blk [0x80] .be (padByte (isNegative .signed (msByte [0x80] .be)))).length = 1 ∧
    (chunkDigits blk [0x80, 1, 2] .be (padByte (isNegative .signed (msByte [0x80, 1, 2] .be)))).length = blk.n := by decide

/-- A slice that fills the value, whose top chunk is chunk `N−1`; and one that fails. -/
theorem witness_NoFailureWithinCapacity :
    1 ≤ blk.n ∧ ([0x80, 1, 2, 3] : List Byte).length = blk.n * blk.bytes ∧
    (chunkDigits blk [0x80, 1, 2, 3] .be (padByte (isNegative .signed (msByte [0x80, 1, 2, 3] .be))))[blk.n - 1]?
      = some 0x8001#_ ∧
    decodeSlice blk [0x01, 0xFF, 0xFF, 0xFF, 0xFE] .be .signed = none := by decide

theorem witness_EmptySliceIsZero : 0 < blk.n ∧ 1 < blk.n := by decide

/-- Lengths 0, 1, `N·BYTES − 1`, `N·BYTES` and `N·BYTES + 1`; a digit above the last chunk. -/
theorem witness_FourLengthCases :
    1 ≤ blk.n ∧ ([] : List Byte).length = 0 ∧ 0 < ([0x80] : List Byte).length ∧
    ([0x80, 1, 2] : List Byte).length + 1 = blk.n * blk.bytes ∧
    ([0x80, 1, 2, 3] : List Byte).length = blk.n * blk.bytes ∧
    ([0xFF, 0x80, 1, 2, 3] : List Byte).length = blk.n * blk.bytes + 1 ∧
    (chunkDigits blk [0x80] .be 0xFF)[0]? = some 0xFF80#_ ∧ (chunkDigits blk [0x80] .be 0xFF).length ≤ 1 ∧ 1 < blk.n := by
  decide

theorem witness_ExactSliceDecodesAsTheArray :
    1 ≤ blk.n ∧ ([0x80, 1, 2, 3] : List Byte).length = blk.n * blk.bytes := by decide

theorem witness_RedundantSignBytesAreAccepted : 1 ≤ blk.n ∧ ([0x80] : List Byte) ≠ [] := by decide

/-- Most-significant bytes 0x7F and 0x80; lengths below and at the capacity; both flavours succeed. -/
theorem witness_SignedAndUnsignedOnTheSameBytes :
    1 ≤ blk.n ∧ ([0x7F] : List Byte) ≠ [] ∧ (msByte [0x7F] .be).toNat < 0x80 ∧ 0x80 ≤ (msByte [0x80] .be).toNat ∧
    decodeSlice blk [0x7F] .be .signed = some 0x7F#_ ∧ decodeSlice blk [0x7F] .be .unsigned = some 0x7F#_ ∧
    ([0x80, 1, 2] : List Byte).length + 1 = blk.n * blk.bytes ∧
    ([0x80, 1, 2, 3] : List Byte).length = blk.n * blk.bytes := by decide

/-- The longest slice the port carries, in both outcomes; the widths and the array of the corner cases. -/
theorem witness_IntFromBeSliceResult :
    (blkState 0x28 [0xFF, 0x80, 1, 2, 3] 5).cfg.wf = true ∧
    sliceLength (blkState 0x28 [0xFF, 0x80, 1, 2, 3] 5) = (blkState 0x28 [0xFF, 0x80, 1, 2, 3] 5).cfg.lmax ∧
    decodeSlice blk [0xFF, 0x80, 1, 2, 3] .be .signed = some 0x80010203#_ ∧
    decodeSlice blk [0x00, 0x80, 1, 2, 3] .be .signed = none ∧ 1 ≤ Config.n ⟨1, 1, .le, 2⟩ ∧
    16 ≤ Config.valBits ⟨1, 1, .le, 2⟩ ∧ ([0x80, 0] : List Byte).length = Config.n ⟨1, 1, .le, 2⟩ * Config.bytes ⟨1, 1, .le, 2⟩ ∧
    0x80 ≤ (([0x80, 0] : List Byte).getD 0 0).toNat := by decide

theorem witness_IntFromLeSliceResult :
    (blkState 0x29 [3, 2, 1, 0x80, 0xFF] 5).cfg.wf = true ∧
    sliceLength (blkState 0x29 [3, 2, 1, 0x80, 0xFF] 5) = (blkState 0x29 [3, 2, 1, 0x80, 0xFF] 5).cfg.lmax ∧
    decodeSlice blk [3, 2, 1, 0x80, 0xFF] .le .signed = some 0x80010203#_ ∧
    decodeSlice blk [3, 2, 1, 0x80, 0x00] .le .signed = none := by decide

theorem witness_UintFromBeSliceResult :
    (blkState 0x08 [0x00, 0x80, 1, 2, 3] 5).cfg.wf = true ∧
    sliceLength (blkState 0x08 [0x00, 0x80, 1, 2, 3] 5) = (blkState 0x08 [0x00, 0x80, 1, 2, 3] 5).cfg.lmax ∧
    decodeSlice blk [0x00, 0x80, 1, 2, 3] .be .unsigned = some 0x80010203#_ ∧
    decodeSlice blk [0xFF, 0x80, 1, 2, 3] .be .unsigned = none ∧ 1 ≤ blk.n ∧
    ([0x80, 1, 2, 3] : List Byte).length = blk.n * blk.bytes := by decide

theorem witness_UintFromLeSliceResult :
    (blkState 0x09 [3, 2, 1, 0x80, 0x00] 5).cfg.wf = true ∧
    sliceLength (blkState 0x09 [3, 2, 1, 0x80, 0x00] 5) = (blkState 0x09 [3, 2, 1, 0x80, 0x00] 5).cfg.lmax ∧
    decodeSlice blk [3, 2, 1, 0x80, 0x00] .le .unsigned = some 0x80010203#_ ∧
    decodeSlice blk [3, 2, 1, 0x80, 0xFF] .le .unsigned = none ∧ 1 ≤ blk.n ∧
    ([3, 2, 1, 0x80] : List Byte).length = blk.n * blk.bytes := by decide

/-- Positions and digits at both ends; the values 0, −1 and the most negative number. -/
theorem witness_ToBeBytesResult :
    (mk 1 2 .le 5 0x24 0 [] 0).cfg.wf = true ∧ 0 < blk.total ∧ 3 < blk.total ∧ 0 < blk.n ∧ 1 < blk.n ∧
    (mk 1 2 .le 5 0x24 0 [] 0).inp.valIn = 0 ∧ (mk 1 2 .le 5 0x24 0xFFFFFFFF [] 0).inp.valIn.toInt = -1 ∧
    (mk 1 2 .le 5 0x24 0x80000000 [] 0).inp.valIn.toInt = -(2 : Int) ^ (blk.valBits - 1) := by decide

theorem witness_ToLeBytesResult :
    (mk 1 2 .be 5 0x25 0 [] 0).cfg.wf = true ∧ 0 < blk.total ∧ 3 < blk.total ∧ 0 < blk.n ∧ 1 < blk.n ∧
    (mk 1 2 .be 5 0x25 0 [] 0).inp.valIn = 0 ∧ (mk 1 2 .be 5 0x25 0xFFFFFFFF [] 0).inp.valIn.toInt = -1 ∧
    (mk 1 2 .be 5 0x25 0x80000000 [] 0).inp.valIn.toInt = -(2 : Int) ^ (blk.valBits - 1) := by decide

/-- Both native orders, and a value whose array is a palindrome. -/
theorem witness_ToNeBytesResult :
    (mk 1 2 .le 5 0x26 0 [] 0).cfg.wf = true ∧ (mk 1 2 .le 5 0x26 0 [] 0).cfg.native = .le ∧
    (mk 1 2 .be 5 0x26 0 [] 0).cfg.wf = true ∧ (mk 1 2 .be 5 0x26 0 [] 0).cfg.native = .be ∧
    toBytes blk 0x01000001#_ .be = (toBytes blk 0x01000001#_ .be).reverse := by decide

theorem witness_FromBeBytesResult :
    (blkState 0x20 [0x80, 1, 2, 3] 0).cfg.wf = true ∧ 0x80 ≤ (byteAt (blkState 0x20 [0x80, 1, 2, 3] 0).inp.bytesIn 0).toNat ∧
    0 < blk.n ∧ 1 < blk.n := by decide

theorem witness_FromLeBytesResult :
    (blkState 0x21 [1, 2, 3, 0x80] 0).cfg.wf = true ∧
    0x80 ≤ (byteAt (blkState 0x21 [1, 2, 3, 0x80] 0).inp.bytesIn (blk.total - 1)).toNat ∧ 0 < blk.n ∧ 1 < blk.n := by decide

/-- Arrays made with the block's own native order and with the other one. -/
theorem witness_FromNeBytesResult :
    (mk 1 2 .be 5 0x22 0 [0x12, 0x34, 0x56, 0x78] 0).cfg.wf = true ∧
    (mk 1 2 .le 5 0x22 0 [0x12, 0x34, 0x56, 0x78] 0).cfg.wf = true ∧
    (List.range 4).map (fun j => byteAt (mk 1 2 .le 5 0x22 0 [0x12, 0x34, 0x56, 0x78] 0).inp.bytesIn j)
      = toBytes blk 0x78563412#_ .le ∧
    (List.range 4).map (fun j => byteAt (mk 1 2 .le 5 0x22 0 [0x12, 0x34, 0x56, 0x78] 0).inp.bytesIn j)
      = toBytes blk 0x12345678#_ .be ∧ blk.native ≠ .be := by decide

theorem witness_ArrayRoundTrip : ([0x80, 1, 2, 3] : List Byte).length = blk.n * blk.bytes := by decide

theorem witness_ArrayOrdersAreReversals :
    ([0x80, 1, 2, 3] : List Byte).length = blk.n * blk.bytes ∧ Config.n ⟨0, 1, .le, 1⟩ * Config.bytes ⟨0, 1, .le, 1⟩ = 1 ∧
    ([0xA5] : List Byte).length = 1 := by decide

theorem witness_ArrayLayoutInDigits : 0 < blk.n * blk.bytes ∧ 3 < blk.n * blk.bytes := by decide

theorem witness_FixedOrderArraysArePortable : blk.total = Config.total ⟨0, 4, .be, 4⟩ := by decide

theorem witness_SwapReversesTheBytes :
    0 < blk.n ∧ 1 < blk.n ∧ 0 < blk.total ∧ 3 < blk.total ∧ Config.total ⟨0, 1, .le, 1⟩ = 1 := by decide

/-- Both native orders, a value that is its own reversal, and `T = 1`. -/
theorem witness_ToBeAndFromBeResult :
    (mk 1 2 .le 5 0x2C 0x01000001 [] 0).cfg.wf = true ∧ (mk 1 2 .le 5 0x2C 0x01000001 [] 0).cfg.native = .le ∧
    (mk 1 2 .be 5 0x2C 0x01000001 [] 0).cfg.wf = true ∧ (mk 1 2 .be 5 0x2C 0x01000001 [] 0).cfg.native = .be ∧
    (∀ m, m < blk.total → byteAt (mk 1 2 .le 5 0x2C 0x01000001 [] 0).inp.valIn m
      = byteAt (mk 1 2 .le 5 0x2C 0x01000001 [] 0).inp.valIn (blk.total - 1 - m)) ∧
    (mk 0 1 .le 1 0x2C 0xA5 [] 0).cfg.wf = true ∧ (mk 0 1 .le 1 0x2C 0xA5 [] 0).cfg.total = 1 := by decide

theorem witness_ToLeAndFromLeResult :
    (mk 1 2 .le 5 0x2D 0x01000001 [] 0).cfg.wf = true ∧ (mk 1 2 .le 5 0x2D 0x01000001 [] 0).cfg.native = .le ∧
    (mk 1 2 .be 5 0x2D 0x01000001 [] 0).cfg.wf = true ∧ (mk 1 2 .be 5 0x2D 0x01000001 [] 0).cfg.native = .be ∧
    (∀ m, m < blk.total → byteAt (mk 1 2 .be 5 0x2D 0x01000001 [] 0).inp.valIn m
      = byteAt (mk 1 2 .be 5 0x2D 0x01000001 [] 0).inp.valIn (blk.total - 1 - m)) ∧
    (mk 0 1 .be 1 0x2D 0xA5 [] 0).cfg.wf = true ∧ (mk 0 1 .be 1 0x2D 0xA5 [] 0).cfg.total = 1 := by decide

theorem witness_OneOrderIsTheIdentity :
    Config.native ⟨1, 2, .be, 4⟩ = .be ∧ Config.native ⟨1, 2, .le, 4⟩ = .le := by decide

theorem witness_WholeValueAndArrayFamiliesAgree : ([0x80, 1, 2, 3] : List Byte).length = blk.n * blk.bytes := by decide

end Sys2Proof.Tests
end

section
/-! PROOFS. The command word (30_encoding.md): what decodes, what is reserved, and what `len_in` can do. -/

namespace Sys2Proof

/-! The three fields of a word, read back as bits (R77, R78, R79). -/

theorem bit_flavourOf (w : CmdWord) : (flavourOf w).bit = w.extractLsb' 5 1 := by
  apply BitVec.eq_of_toNat_eq
  have hlt := (w.extractLsb' 5 1).isLt
  unfold flavourOf
  split
  · next h => exact h.symm
  · simp only [Flavour.bit, BitVec.toNat_ofNat]; omega

theorem bits_of_familyOf {w : CmdWord} {f : Family} (h : familyOf w = some f) : f.bits = w.extractLsb' 2 3 := by
  unfold familyOf at h
  apply BitVec.eq_of_toNat_eq
  split at h <;> cases h <;> exact Eq.symm ‹_›

theorem bits_of_orderOf {w : CmdWord} {o : ByteOrder} (h : orderOf w = some o) : o.bits = w.extractLsb' 0 2 := by
  unfold orderOf at h
  apply BitVec.eq_of_toNat_eq
  split at h <;> cases h <;> exact Eq.symm ‹_›

/-- A word is its three fields in the order of CMD6 (R71). -/
theorem fields_append (w : CmdWord) : w.extractLsb' 5 1 ++ w.extractLsb' 2 3 ++ w.extractLsb' 0 2 = w := by
  rw [BitVec.extractLsb'_append_extractLsb'_eq_extractLsb' (show 5 = 2 + 3 from rfl),
    BitVec.extractLsb'_append_extractLsb'_eq_extractLsb' (show 2 = 0 + 2 from rfl)]
  exact BitVec.extractLsb'_eq_self

theorem fields_of_lookup {s : Flavour} {f : Family} {o : ByteOrder} {i : Instr} (h : lookup s f o = some i) :
    i.fields = (s, f, o) := by
  unfold lookup at h
  split at h <;> cases h <;> rfl

/-- All that a word that decodes can be: its fields are all defined, and the opcode map has a row for them. -/
theorem decode_ok {w : CmdWord} {i : Instr} (h : decode w = .ok i) :
    ∃ f o, familyOf w = some f ∧ orderOf w = some o ∧ lookup (flavourOf w) f o = some i := by
  unfold decode at h
  split at h
  · cases h
  · cases h
  · next f o hf ho =>
    split at h
    · next hl => cases h; exact ⟨f, o, hf, ho, hl⟩
    · cases h

theorem eq_encode_of_decode {w : CmdWord} {i : Instr} (h : decode w = .ok i) : w = encode i := by
  obtain ⟨f, o, hf, ho, hl⟩ := decode_ok h
  rw [encode, fields_of_lookup hl, bit_flavourOf, bits_of_familyOf hf, bits_of_orderOf ho, fields_append]

open Laws in
theorem roundTrip (i : Instr) : RoundTrip.Statement i := by
  cases i
  exacts [RoundTrip.uintFromBeBytes, RoundTrip.uintFromLeBytes, RoundTrip.uintFromNeBytes,
    RoundTrip.uintToBeBytes, RoundTrip.uintToLeBytes, RoundTrip.uintToNeBytes,
    RoundTrip.uintFromBeSlice, RoundTrip.uintFromLeSlice,
    RoundTrip.uintToBe, RoundTrip.uintToLe, RoundTrip.uintFromBe, RoundTrip.uintFromLe,
    RoundTrip.intFromBeBytes, RoundTrip.intFromLeBytes, RoundTrip.intFromNeBytes,
    RoundTrip.intToBeBytes, RoundTrip.intToLeBytes, RoundTrip.intToNeBytes,
    RoundTrip.intFromBeSlice, RoundTrip.intFromLeSlice,
    RoundTrip.intToBe, RoundTrip.intToLe, RoundTrip.intFromBe, RoundTrip.intFromLe]

theorem decode_encode (i : Instr) : decode (encode i) = .ok i := (roundTrip i).1

/-- Decoding and encoding are inverse to each other: a word decodes to a command only if it is its word. -/
theorem decode_eq_ok_iff {w : CmdWord} {i : Instr} : decode w = .ok i ↔ w = encode i :=
  ⟨eq_encode_of_decode, fun h => h ▸ decode_encode i⟩

/-- The words of R83, row by row, unsigned before signed. -/
def commandWords : List CmdWord :=
  [0x00#6, 0x20#6, 0x01#6, 0x21#6, 0x02#6, 0x22#6, 0x04#6, 0x24#6, 0x05#6, 0x25#6, 0x06#6, 0x26#6,
   0x08#6, 0x28#6, 0x09#6, 0x29#6, 0x0C#6, 0x2C#6, 0x0D#6, 0x2D#6, 0x10#6, 0x30#6, 0x11#6, 0x31#6]

theorem encode_mem_commandWords (i : Instr) : encode i ∈ commandWords := by
  cases i <;> decide

theorem mem_commandWords_iff (w : CmdWord) : w ∈ commandWords ↔ ∃ i, decode w = .ok i := by
  constructor
  · revert w
    simp only [commandWords, List.forall_mem_cons]
    iterate 24 refine ⟨⟨_, rfl⟩, ?_⟩
    exact fun _ h => absurd h List.not_mem_nil
  · rintro ⟨i, h⟩
    exact eq_encode_of_decode h ▸ encode_mem_commandWords i

/-- Settles O1: each row holds because its word is the encoding of its command, and a word that decodes is an encoding,
hence in the table. -/
theorem opcodeMapIsTheTable : Obligations.OpcodeMapIsTheTable := by
  unfold Obligations.OpcodeMapIsTheTable
  iterate 24 refine ⟨decode_eq_ok_iff.2 (by decide), ?_⟩
  exact fun w i h => (mem_commandWords_iff w).2 ⟨i, h⟩

/-- The reserved words of R80 with `S = 0`. -/
def reservedUnsigned : List CmdWord :=
  [0x03#6, 0x07#6, 0x0B#6, 0x0F#6, 0x13#6, 0x0A#6, 0x0E#6, 0x12#6, 0x14#6, 0x15#6, 0x16#6, 0x17#6, 0x18#6,
   0x19#6, 0x1A#6, 0x1B#6, 0x1C#6, 0x1D#6, 0x1E#6, 0x1F#6]

/-- The reserved words of R80 for both flavours; `S` is bit 5. -/
def reservedWords : List CmdWord := reservedUnsigned ++ reservedUnsigned.map (· + 0x20#6)

theorem nodup_reservedWords : reservedWords.Nodup := by decide

/-- R80 and R83 cut the 64 words in two. -/
theorem mem_reservedWords_iff : ∀ w : CmdWord, w ∈ reservedWords ↔ w ∉ commandWords := by decide

/-- The decoder rejects exactly the reserved words, because R83 is exactly what it accepts. -/
theorem decode_error_iff (w : CmdWord) : (∃ r, decode w = .error r) ↔ w ∈ reservedWords := by
  rw [mem_reservedWords_iff, mem_commandWords_iff]
  cases decode w <;> simp

namespace Machine

theorem step_of_mem_reservedWords {s : State} (hw : s.cfg.wf = true) (h : s.inp.cmd ∈ reservedWords) :
    step s = .next (s.drive (failure s.cfg .illegal)) := by
  obtain ⟨r, hr⟩ := (decode_error_iff _).2 h
  rw [step_of_reject hr, illegal, respond_of_wf hw]

/-- Settles O3: the reserved words are the ones outside R83, and the step of a rejected word is the shared refusal. -/
theorem reservedWordsGiveIllegal : Obligations.ReservedWordsGiveIllegal :=
  ⟨nodup_reservedWords, rfl, decode_error_iff, fun _ => step_of_mem_reservedWords⟩

/-! The port `len_in` (R70, R87). -/

theorem exists_toNat_gt_iff (m n : Nat) : (∃ l : BitVec m, n < l.toNat) ↔ n + 1 < 2 ^ m := by
  constructor
  · rintro ⟨l, hl⟩
    exact lt_of_le_of_lt hl l.isLt
  · intro h
    exact ⟨BitVec.ofNat m (n + 1), by rw [BitVec.toNat_ofNat, Nat.mod_eq_of_lt h]; exact Nat.lt_succ_self n⟩

/-- `LENW` leaves a length above `LMAX` unless `LMAX+1` fills it, and only a power of two fills it. -/
theorem succ_lmax_lt_two_pow_lenW_iff (c : Config) :
    c.lmax + 1 < 2 ^ c.lenW ↔ ¬ ∃ m, c.lmax + 1 = 2 ^ m := by
  constructor
  · rintro h ⟨m, hm⟩
    have hle : 2 ^ c.lenW ≤ 2 ^ m :=
      Nat.pow_le_pow_right (by decide) (c.lenW_le_of_lt_two_pow m (by omega))
    omega
  · intro h
    exact lt_of_le_of_ne c.lmax_lt_two_pow_lenW fun he => h ⟨c.lenW, he⟩

/-- A slice command above the port refuses before it looks at any data (R87). -/
theorem commandResponse_of_longSlice {i : Instr} {s : State} (hi : i.isSlice = true)
    (hl : s.cfg.lmax < sliceLength s) : commandResponse s i = failure s.cfg .illegal := by
  rcases hf : i.fields with ⟨f, fam, o⟩
  obtain rfl : fam = .fromSlice := by simpa [Instr.isSlice, hf] using hi
  simp [commandResponse, hf, hl]

/-- Outside FROM_SLICE nothing fails (R170, R189). -/
theorem commandResponse_status_of_not_slice {i : Instr} (s : State) (hi : i.isSlice = false) :
    (commandResponse s i).status = .ok := by
  rcases hf : i.fields with ⟨f, fam, o⟩
  cases fam
  case fromSlice => simp [Instr.isSlice, hf] at hi
  all_goals simp [commandResponse, hf]

/-- Outside FROM_SLICE the response does not read `len_in` (R82, R87). -/
theorem commandResponse_lenIn_of_not_slice {i : Instr} (hi : i.isSlice = false) {c : Config} (r : Inputs c)
    (o : Outputs c) (l : BitVec c.lenW) :
    commandResponse ⟨c, { r with lenIn := l }, o⟩ i = commandResponse ⟨c, r, o⟩ i := by
  rcases hf : i.fields with ⟨f, fam, ord⟩
  cases fam
  case fromSlice => simp [Instr.isSlice, hf] at hi
  all_goals
    simp only [commandResponse, hf]
    rfl

/-- Settles O16: the width of `len_in` decides what it can carry, a long slice is refused, and the response of any other
command does not read the port. -/
theorem sliceLengthAboveThePortIsIllegal : Obligations.SliceLengthAboveThePortIsIllegal := by
  refine ⟨fun c => ?_, fun i s hw hi hl => ?_, fun i c r o l hw hi => ?_⟩
  · rw [exists_toNat_gt_iff, succ_lmax_lt_two_pow_lenW_iff]
  · rw [exec_of_wf i hw, commandResponse_of_longSlice hi hl]
    rfl
  · refine ⟨commandResponse ⟨c, r, o⟩ i, exec_of_wf i hw, ?_, ?_⟩
    · rw [commandResponse_status_of_not_slice _ hi]
      decide
    · rw [exec_of_wf i hw, commandResponse_lenIn_of_not_slice hi]
      rfl

end Machine

end Sys2Proof
end

section
/-! PROOFS. The digit units (40_digit_units.md): byte layout of a digit, the number of its bytes, the padded partial
chunk, and the verdict on a chunk. -/

namespace Sys2Proof.Machine

/-! `digit_to_bytes` (R100). -/

theorem getD_digitToBytes_be (c : Config) (d : Digit c) {k : Nat} (h : k < c.bytes) :
    (digitToBytes c d .be).getD k 0 = byteAt d (c.bytes - 1 - k) := by
  simp [digitToBytes, List.getD_eq_getElem?_getD, h]

theorem getD_digitToBytes_le (c : Config) (d : Digit c) {k : Nat} (h : k < c.bytes) :
    (digitToBytes c d .le).getD k 0 = byteAt d k := by
  rw [digitToBytes_le, lanes_getD, if_pos h]

/-- A byte as the spec writes it: shift right and keep eight bits. -/
theorem byteAt_eq_ofNat_shiftRight {m : Nat} (x : BitVec m) (j : Nat) :
    byteAt x j = BitVec.ofNat 8 (x.toNat >>> (8 * j)) := rfl

/-- Byte `k` from the most significant end begins at bit `W−8−8k`. -/
theorem byteAt_from_top (c : Config) (d : Digit c) (k : Nat) :
    byteAt d (c.bytes - 1 - k) = d.extractLsb' (c.w - 8 - 8 * k) 8 := by
  have hbit : 8 * (c.bytes - 1 - k) = c.w - 8 - 8 * k := by rw [c.w_eq]; omega
  rw [byteAt, hbit]

/-- Settles O18: the byte at each position of the two fixed orders, and the native order resolves to one of them;
the example is the inverse law on its four bytes. -/
theorem digitToBytesLayout : Obligations.DigitToBytesLayout := by
  refine ⟨fun c d => ⟨fun o => length_digitToBytes c d _, ?_, fun k hk => ⟨?_, ?_, ?_, ?_⟩⟩,
    fun n native lmax =>
      ⟨digitToBytes_bytesToDigit ⟨2, n, native, lmax⟩ [0x12#8, 0x34#8, 0x56#8, 0x78#8] .be rfl,
        digitToBytes_bytesToDigit ⟨2, n, native, lmax⟩ [0x78#8, 0x56#8, 0x34#8, 0x12#8] .le rfl⟩⟩
  · cases hn : c.native <;> simp only [digitToBytesOrd, resolve, hn]
  · exact (getD_digitToBytes_be c d hk).trans (byteAt_eq_ofNat_shiftRight d _)
  · exact (getD_digitToBytes_be c d hk).trans (byteAt_from_top c d k)
  · exact (getD_digitToBytes_le c d hk).trans (byteAt_eq_ofNat_shiftRight d k)
  · exact getD_digitToBytes_le c d hk

/-! `bytes_to_digit` (R104). -/

theorem natOf_lt_two_pow (e : Endian) (b : List Byte) : natOf e b < 2 ^ (8 * b.length) := by
  rw [Nat.pow_mul]
  exact natOf_lt e b

/-- `BYTES` bytes are never too large for a digit. -/
theorem natOf_lt_two_pow_w (c : Config) (e : Endian) {b : List Byte} (h : b.length = c.bytes) :
    natOf e b < 2 ^ c.w := by
  rw [c.w_eq, ← h]
  exact natOf_lt_two_pow e b

/-- Settles O20: the bound makes the conversion lossless, and the native order resolves to one of the fixed ones. -/
theorem bytesToDigitReadsTheNumber : Obligations.BytesToDigitReadsTheNumber := by
  refine ⟨fun c b hb => ⟨toNat_bytesToDigit c b .be hb, toNat_bytesToDigit c b .le hb, ?_,
    natOf_lt_two_pow_w c .be hb, natOf_lt_two_pow_w c .le hb⟩, fun n native lmax => ⟨rfl, rfl⟩⟩
  cases hn : c.native <;> simp only [bytesToDigitOrd, resolve, hn]

/-! `pad_chunk` (R112). -/

/-- Big-endian is the mirror: the pad bytes are above the part in both orders (R49). -/
theorem padChunk_be (c : Config) (part : List Byte) (pad : Byte) :
    padChunk c part .be pad = padChunk c part.reverse .le pad := by
  simp only [padChunk, bytesToDigit_be, List.reverse_append, List.reverse_replicate, List.length_reverse]

theorem leNat_replicate_padByte (neg : Bool) (m : Nat) :
    leNat (List.replicate m (padByte neg)) = if neg then 256 ^ m - 1 else 0 := by
  cases neg
  · exact leNat_replicate_zero m
  · exact Nat.eq_sub_of_add_eq (leNat_replicate_ff m)

/-- The pad bytes add nothing, or all the ones above the part. -/
theorem toNat_padChunk_le (c : Config) {part : List Byte} (neg : Bool) (h : part.length ≤ c.bytes) :
    (padChunk c part .le (padByte neg)).toNat
      = leNat part + (if neg then 2 ^ c.w - 2 ^ (8 * part.length) else 0) := by
  have hlen : (part ++ List.replicate (c.bytes - part.length) (padByte neg)).length = c.bytes := by
    rw [List.length_append, List.length_replicate]; omega
  have hones : 256 ^ part.length * (256 ^ (c.bytes - part.length) - 1) = 2 ^ c.w - 2 ^ (8 * part.length) := by
    rw [Nat.mul_sub, ← Nat.pow_add, Nat.add_sub_cancel' h, c.two_pow_w, Nat.pow_mul, Nat.mul_one]
  rw [padChunk, toNat_bytesToDigit c _ .le hlen, natOf, leNat_append, leNat_replicate_padByte]
  cases neg
  · rfl
  · simp only [if_true, hones]

theorem toNat_padChunk (c : Config) {part : List Byte} (e : Endian) (neg : Bool) (h : part.length ≤ c.bytes) :
    (padChunk c part e (padByte neg)).toNat
      = natOf e part + (if neg then 2 ^ c.w - 2 ^ (8 * part.length) else 0) := by
  cases e
  · rw [padChunk_be, toNat_padChunk_le c neg (by rwa [List.length_reverse]), leNat_reverse, List.length_reverse]
    rfl
  · exact toNat_padChunk_le c neg h

/-- Settles O23: the number of the padded chunk is proved little-endian and mirrored; a remainder below `BYTES = 1` is
zero. -/
theorem partialChunkIsPadded : Obligations.PartialChunkIsPadded := by
  refine ⟨fun c part neg _ hlt => ⟨rfl, rfl, fun e =>
    ⟨natOf_lt_two_pow e part, toNat_padChunk c e neg (Nat.le_of_lt hlt)⟩⟩, fun c len h1 => ?_,
    fun n native lmax => ⟨rfl, rfl⟩⟩
  exact Nat.lt_one_iff.1 (h1 ▸ leftover_lt c len)

/-! `truncation_detector`, an equation per range of the chunk index (R114, R115). -/

section Verdict

variable {c : Config} {i : Nat}

theorem verdict_signed_below_top (d : Digit c) (neg : Bool) (h : i + 1 < c.n) :
    verdict c .signed i d neg = .store := if_pos h

theorem verdict_signed_top (d : Digit c) (neg : Bool) (h : i + 1 = c.n) :
    verdict c .signed i d neg = if digitSign c d = neg then .store else .fail := by
  rw [verdict, if_neg (by omega), if_pos h]

theorem verdict_signed_filler (d : Digit c) (neg : Bool) (h : c.n ≤ i) :
    verdict c .signed i d neg = if d = signBits c neg then .skip else .fail := by
  rw [verdict, if_neg (by omega), if_neg (by omega)]

theorem verdict_unsigned_of_lt (d : Digit c) (neg : Bool) (h : i < c.n) :
    verdict c .unsigned i d neg = .store := if_pos h

theorem verdict_unsigned_filler (d : Digit c) (neg : Bool) (h : c.n ≤ i) :
    verdict c .unsigned i d neg = if d = zeroDigit c then .skip else .fail := if_neg (Nat.not_lt.2 h)

end Verdict

/-- Settles O24: the index is below the top digit, at it or above it, and the chunk's test decides the rest. -/
theorem signedVerdict : Obligations.SignedVerdict := by
  intro c i d neg hn
  refine ⟨fun hi => ?_, fun hi hs => ?_, fun hi hs => ?_, fun hi hd => ?_, fun hi hd => ?_, fun h1 => by omega⟩
  · exact verdict_signed_below_top d neg (by omega)
  · exact (verdict_signed_top d neg (by omega)).trans (if_pos hs)
  · exact (verdict_signed_top d neg (by omega)).trans (if_neg hs)
  · exact (verdict_signed_filler d neg hi).trans (if_pos hd)
  · exact (verdict_signed_filler d neg hi).trans (if_neg hd)

/-- Settles O25: the index is below `N` or above, and above it the chunk's test decides. -/
theorem unsignedVerdict : Obligations.UnsignedVerdict := by
  intro c i d
  refine ⟨verdict_unsigned_of_lt d false, fun hi hd => ?_, fun hi hd => ?_⟩
  · exact (verdict_unsigned_filler d false hi).trans (if_pos hd)
  · exact (verdict_unsigned_filler d false hi).trans (if_neg hd)

end Sys2Proof.Machine
end

section
/-! PROOFS. The slice decode in closed form (41_slice_decode.md R140): the chunks are one number in base `2^W`, the
decode keeps its low `N` digits, and no chunk fails exactly when nothing of the number is lost by that. -/

namespace Sys2Proof.Machine

/-! The number of a list of chunks with a represented sign. -/

section Chunks

variable (c : Config) (neg : Bool)

/-- The number of chunks continued by `sign_bits` without end: what lies above them weighs `−1` if negative (R113). -/
def chunkNumber (ds : List (Digit c)) : Int :=
  (digitsNat c ds : Int) - if neg then (((2 ^ c.w) ^ ds.length : Nat) : Int) else 0

/-- The digits a decode keeps: the chunks that have a destination digit, with `sign_bits` above them (R111). -/
def keptDigits (ds : List (Digit c)) : List (Digit c) :=
  ds.take c.n ++ List.replicate (c.n - ds.length) (signBits c neg)

theorem length_keptDigits (ds : List (Digit c)) : (keptDigits c neg ds).length = c.n := by
  simp only [keptDigits, List.length_append, List.length_take, List.length_replicate]; omega

theorem chunkNumber_append (a b : List (Digit c)) :
    chunkNumber c neg (a ++ b) = digitsNat c a + ((2 ^ c.w) ^ a.length : Nat) * chunkNumber c neg b := by
  cases neg
  · simp [chunkNumber, digitsNat_append]
  · simp only [chunkNumber, digitsNat_append, List.length_append, pow_add, if_true]
    push_cast
    ring

/-- The represented sign is the sign of the number, because the chunks alone are less than the weight above them. -/
theorem chunkNumber_neg_iff (ds : List (Digit c)) : chunkNumber c neg ds < 0 ↔ neg = true := by
  have hlt := digitsNat_lt c ds
  cases neg
  · simp [chunkNumber]
  · simp only [chunkNumber, if_true, iff_true]; omega

/-- Filler is `sign_bits` exactly when it adds nothing to the sign. -/
theorem forall_eq_signBits_iff (ds : List (Digit c)) :
    (∀ d ∈ ds, d = signBits c neg) ↔ chunkNumber c neg ds = if neg then -1 else 0 := by
  have hpos : 0 < (2 ^ c.w) ^ ds.length := Nat.pow_pos (Nat.two_pow_pos _)
  rw [digitsNat_all_signBits, chunkNumber]
  cases neg
  · simp
  · simp only [if_true]; omega

/-- Sign extension keeps the number (R113). -/
theorem chunkNumber_append_replicate (ds : List (Digit c)) (m : Nat) :
    chunkNumber c neg (ds ++ List.replicate m (signBits c neg)) = chunkNumber c neg ds := by
  rw [chunkNumber_append,
    (forall_eq_signBits_iff c neg (List.replicate m _)).1 fun d hd => List.eq_of_mem_replicate hd]
  cases neg <;> simp [chunkNumber, sub_eq_add_neg]

/-- The kept digits and the filler are all of the number. -/
theorem chunkNumber_eq_kept_add_filler (ds : List (Digit c)) :
    chunkNumber c neg ds
      = digitsNat c (keptDigits c neg ds) + ((2 ^ c.valBits : Nat) : Int) * chunkNumber c neg (ds.drop c.n) := by
  have hsplit : keptDigits c neg ds ++ ds.drop c.n = ds ++ List.replicate (c.n - ds.length) (signBits c neg) := by
    rcases Nat.le_total ds.length c.n with h | h
    · simp [keptDigits, List.take_of_length_le h, List.drop_of_length_le h]
    · simp [keptDigits, Nat.sub_eq_zero_of_le h]
  rw [← chunkNumber_append_replicate c neg ds (c.n - ds.length), ← hsplit, chunkNumber_append, length_keptDigits,
    c.two_pow_valBits']

theorem toNat_assemble_keptDigits (ds : List (Digit c)) :
    (assemble c (keptDigits c neg ds)).toNat = digitsNat c (keptDigits c neg ds) :=
  toNat_assemble c _ (length_keptDigits c neg ds)

/-- The kept digits are the number modulo `2^(N·W)`, fail or no fail. -/
theorem ofInt_chunkNumber (ds : List (Digit c)) :
    BitVec.ofInt c.valBits (chunkNumber c neg ds) = assemble c (keptDigits c neg ds) :=
  ofInt_eq_ofNat _ _ _ (chunkNumber c neg (ds.drop c.n)) (by
    rw [chunkNumber_eq_kept_add_filler]; push_cast; rfl)

/-- All filler is `sign_bits` exactly when the kept digits and the represented sign determine the number. -/
theorem filler_eq_signBits_iff (ds : List (Digit c)) :
    (∀ d ∈ ds.drop c.n, d = signBits c neg) ↔
      chunkNumber c neg ds
        = (assemble c (keptDigits c neg ds)).toNat - if neg then ((2 ^ c.valBits : Nat) : Int) else 0 := by
  have hpos : ((2 ^ c.valBits : Nat) : Int) ≠ 0 := by exact_mod_cast (Nat.two_pow_pos c.valBits).ne'
  have hneg : (if neg then ((2 ^ c.valBits : Nat) : Int) else 0)
      = -(((2 ^ c.valBits : Nat) : Int) * if neg then -1 else 0) := by
    cases neg <;> simp
  rw [forall_eq_signBits_iff, chunkNumber_eq_kept_add_filler c neg ds, toNat_assemble_keptDigits, hneg, sub_neg_eq_add,
    add_right_inj, mul_right_inj' hpos]

theorem digitSign_signBits : digitSign c (signBits c neg) = neg := by
  have hw : 2 ^ c.w = 2 * 2 ^ (c.w - 1) := by rw [← Nat.pow_succ', Nat.succ_eq_add_one, Nat.sub_add_cancel c.w_pos]
  have hpos := Nat.two_pow_pos (c.w - 1)
  rw [digitSign_eq]
  cases neg
  · simp [signBits]
  · simp only [signBits, if_true, toNat_allOnesDigit, decide_eq_true_eq]; omega

/-- The sign of a value is that of its top digit (R107). -/
theorem msb_assemble (l : List (Digit c)) (d : Digit c) (h : l.length + 1 = c.n) :
    (assemble c (l ++ [d])).msb = digitSign c d := by
  have hlen : (l ++ [d]).length = c.n := by simpa using h
  rw [digitSign_append, h, ← c.two_pow_valBits', ← toNat_assemble c _ hlen, BitVec.msb_eq_getLsbD_last]
  exact getLsbD_top _ _ (c.valBits_pos (by omega))

/-- The top chunk has the represented sign, or is not there, exactly when the kept digits have it. -/
theorem topChunk_sign_iff (hn : 1 ≤ c.n) (ds : List (Digit c)) :
    ((h : c.n - 1 < ds.length) → digitSign c ds[c.n - 1] = neg) ↔ (assemble c (keptDigits c neg ds)).msb = neg := by
  by_cases h : c.n - 1 < ds.length
  · have hkept : keptDigits c neg ds = ds.take (c.n - 1) ++ [ds[c.n - 1]] := by
      rw [keptDigits, Nat.sub_eq_zero_of_le (show c.n ≤ ds.length by omega), List.take_append_getElem,
        Nat.sub_add_cancel hn, List.replicate_zero, List.append_nil]
    rw [hkept, msb_assemble c _ _ (by rw [List.length_take]; omega)]
    exact ⟨fun hs => hs h, fun hs _ => hs⟩
  · have hkept : keptDigits c neg ds
        = (ds.take c.n ++ List.replicate (c.n - 1 - ds.length) (signBits c neg)) ++ [signBits c neg] := by
      rw [keptDigits, List.append_assoc, ← List.replicate_succ']
      congr 2
      omega
    rw [hkept, msb_assemble c _ _ (by simp only [List.length_append, List.length_take, List.length_replicate]; omega)]
    exact ⟨fun _ => digitSign_signBits c neg, fun _ h' => absurd h' h⟩

end Chunks

/-! Fitting the target width (R118). -/

theorem fits_signed_iff (c : Config) (v : Int) :
    fits c .signed v = true ↔ -(2 : Int) ^ (c.valBits - 1) ≤ v ∧ v < (2 : Int) ^ (c.valBits - 1) := by
  simp [fits]

theorem fits_unsigned_iff (c : Config) (v : Int) :
    fits c .unsigned v = true ↔ 0 ≤ v ∧ v < (2 : Int) ^ c.valBits := by
  simp [fits]

theorem fits_unsigned_natCast_iff (c : Config) (u : Nat) : fits c .unsigned u = true ↔ u < 2 ^ c.valBits := by
  rw [fits_unsigned_iff]
  exact ⟨fun h => by exact_mod_cast h.2, fun h => ⟨Int.natCast_nonneg u, by exact_mod_cast h⟩⟩

/-- A number fits the signed reading exactly when its pattern reads back as the number. -/
theorem fits_signed_iff_toInt (c : Config) (hn : 1 ≤ c.n) (v : Int) :
    fits c .signed v = true ↔ (BitVec.ofInt c.valBits v).toInt = v := by
  rw [fits_signed_iff]
  constructor
  · rintro ⟨hlo, hhi⟩
    exact BitVec.toInt_ofInt_eq_self (c.valBits_pos hn) hlo hhi
  · intro h
    rw [← h]
    exact ⟨BitVec.le_toInt _, BitVec.toInt_lt⟩

/-- A number fits the unsigned reading exactly when its pattern reads back as the number. -/
theorem fits_unsigned_iff_toNat (c : Config) (v : Int) :
    fits c .unsigned v = true ↔ ((BitVec.ofInt c.valBits v).toNat : Int) = v := by
  rw [fits_unsigned_iff]
  constructor
  · rintro ⟨hlo, hhi⟩
    have hcast : ((2 ^ c.valBits : Nat) : Int) = 2 ^ c.valBits := by push_cast; rfl
    rw [BitVec.toNat_ofInt, hcast, Int.emod_eq_of_lt hlo hhi, Int.toNat_of_nonneg hlo]
  · intro h
    rw [← h]
    exact ⟨Int.natCast_nonneg _, by exact_mod_cast (BitVec.ofInt c.valBits v).isLt⟩

/-- Signed: the top test and the filler test together say that the kept digits read back as the number. -/
theorem noFail_signed_iff_fits (c : Config) (hn : 1 ≤ c.n) (neg : Bool) (ds : List (Digit c)) :
    (∀ j, (hj : j < ds.length) → verdict c .signed j ds[j] neg ≠ .fail) ↔
      fits c .signed (chunkNumber c neg ds) = true := by
  rw [noFail_iff c hn .signed neg nofun, fits_signed_iff_toInt c hn, ofInt_chunkNumber, filler_eq_signBits_iff,
    BitVec.toInt_eq_msb_cond]
  simp only [forall_const]
  rw [topChunk_sign_iff c neg hn]
  constructor
  · rintro ⟨htop, hfill⟩
    rw [hfill, htop]
    cases neg <;> simp
  · intro h
    have hmsb : (assemble c (keptDigits c neg ds)).msb = neg := by
      rw [Bool.eq_iff_iff, ← chunkNumber_neg_iff c neg ds, ← h, ← BitVec.toInt_eq_msb_cond,
        BitVec.msb_eq_toInt, decide_eq_true_iff]
    rw [hmsb] at h
    refine ⟨hmsb, h.symm.trans ?_⟩
    cases neg <;> simp

/-- Unsigned: the filler test alone says it. -/
theorem noFail_unsigned_iff_fits (c : Config) (hn : 1 ≤ c.n) (ds : List (Digit c)) :
    (∀ j, (hj : j < ds.length) → verdict c .unsigned j ds[j] false ≠ .fail) ↔
      fits c .unsigned (chunkNumber c false ds) = true := by
  rw [noFail_iff c hn .unsigned false fun _ => rfl, fits_unsigned_iff_toNat, ofInt_chunkNumber,
    filler_eq_signBits_iff]
  simp only [reduceCtorEq, false_implies, true_and, Bool.false_eq_true, if_false, sub_zero]
  exact eq_comm

theorem noFail_iff_fits (c : Config) (hn : 1 ≤ c.n) (f : Flavour) (msb : Byte) (ds : List (Digit c)) :
    (∀ j, (hj : j < ds.length) → verdict c f j ds[j] (isNegative f msb) ≠ .fail) ↔
      fits c f (chunkNumber c (isNegative f msb) ds) = true := by
  cases f
  · exact noFail_unsigned_iff_fits c hn ds
  · exact noFail_signed_iff_fits c hn _ ds

/-! Both orders. -/

/-- Decoding big-endian is decoding the reversal little-endian: the sign and the chunks are the same (R139). -/
theorem decodeSlice_be (c : Config) (src : List Byte) (f : Flavour) :
    decodeSlice c src .be f = decodeSlice c src.reverse .le f := by
  by_cases h : src.length = 0
  · simp [decodeSlice, h]
  · simp only [decodeSlice, initWork, List.length_reverse, msByte_be src h, chunkDigits_be]

theorem decodeSlice_le (c : Config) (src : List Byte) (f : Flavour) :
    decodeSlice c src .le f = decodeSlice c src.reverse .be f := by
  rw [decodeSlice_be, List.reverse_reverse]

/-- Settles O33: the mirror lemma of the decode. -/
theorem sliceDecodeIsMirrorSymmetric : Obligations.SliceDecodeIsMirrorSymmetric := decodeSlice_be

theorem sliceNumber_be (f : Flavour) (src : List Byte) : sliceNumber .be f src = sliceNumber .le f src.reverse := by
  cases f <;> simp [sliceNumber, natOf, leNat_reverse]

theorem closedDecode_be (c : Config) (src : List Byte) (f : Flavour) :
    closedDecode c src .be f = closedDecode c src.reverse .le f := by
  simp only [closedDecode, sliceNumber_be]

@[simp] theorem decodeSlice_nil (c : Config) (e : Endian) (f : Flavour) : decodeSlice c [] e f = some 0 :=
  congrArg some (zeroValue_eq c)

@[simp] theorem sliceNumber_nil (e : Endian) (f : Flavour) : sliceNumber e f [] = 0 := by
  cases e <;> cases f <;> rfl

theorem closedDecode_nil (c : Config) (e : Endian) (f : Flavour) : closedDecode c [] e f = some 0 := by
  have h : fits c f 0 = true := by
    cases f
    · exact (fits_unsigned_natCast_iff c 0).2 (Nat.two_pow_pos _)
    · rw [fits_signed_iff]
      exact ⟨neg_nonpos.2 (by positivity), by positivity⟩
  rw [closedDecode, sliceNumber_nil, if_pos h]
  simp

theorem decodeSlice_le_eq_closedDecode (c : Config) (hn : 1 ≤ c.n) (src : List Byte) (f : Flavour) :
    decodeSlice c src .le f = closedDecode c src .le f := by
  by_cases h : src.length = 0
  · rw [List.eq_nil_of_length_eq_zero h, decodeSlice_nil, closedDecode_nil]
  · rw [decodeSlice_of_ne c src .le f h, closedDecode, sliceNumber_eq_chunks c f src h, ← chunkNumber,
      ofInt_chunkNumber]
    simp only [noFail_iff_fits c hn, keptDigits]

/-- The algorithm of R135 computes the closed form of R140. -/
theorem decodeSlice_eq_closedDecode (c : Config) (hn : 1 ≤ c.n) (src : List Byte) (e : Endian) (f : Flavour) :
    decodeSlice c src e f = closedDecode c src e f := by
  cases e
  · rw [decodeSlice_be, closedDecode_be, decodeSlice_le_eq_closedDecode c hn]
  · exact decodeSlice_le_eq_closedDecode c hn src f

end Sys2Proof.Machine
end

section
/-! PROOFS. The slice commands (41_slice_decode.md R130 to R134, R138): what a decoded value reads as, which slices
overflow, and the commands at the port. -/

namespace Sys2Proof.Machine

/-! A decoded value reads as the number of the slice. -/

theorem closedDecode_eq_some_iff {c : Config} {src : List Byte} {e : Endian} {f : Flavour} {x : Value c} :
    closedDecode c src e f = some x ↔
      fits c f (sliceNumber e f src) = true ∧ BitVec.ofInt c.valBits (sliceNumber e f src) = x := by
  rw [closedDecode, Option.ite_none_right_eq_some, Option.some_inj]

section Decode

variable {c : Config} (hn : 1 ≤ c.n) {src : List Byte} {e : Endian} {f : Flavour} {x : Value c}
include hn

theorem decodeSlice_eq_some_iff :
    decodeSlice c src e f = some x ↔
      fits c f (sliceNumber e f src) = true ∧ BitVec.ofInt c.valBits (sliceNumber e f src) = x := by
  rw [decodeSlice_eq_closedDecode c hn, closedDecode_eq_some_iff]

theorem toInt_of_decodeSlice (h : decodeSlice c src e .signed = some x) : x.toInt = sliceNumber e .signed src := by
  obtain ⟨hfit, rfl⟩ := (decodeSlice_eq_some_iff hn).1 h
  exact (fits_signed_iff_toInt c hn _).1 hfit

theorem toNat_of_decodeSlice (h : decodeSlice c src e .unsigned = some x) : x.toNat = natOf e src := by
  obtain ⟨hfit, rfl⟩ := (decodeSlice_eq_some_iff hn).1 h
  exact Int.ofNat_inj.1 ((fits_unsigned_iff_toNat c _).1 hfit)

theorem exists_decodeSlice_iff_fits :
    (∃ x, decodeSlice c src e f = some x) ↔ fits c f (sliceNumber e f src) = true := by
  simp only [decodeSlice_eq_some_iff hn, exists_and_left, exists_eq', and_true]

theorem decodeSlice_eq_none_iff_not_fits :
    decodeSlice c src e f = none ↔ ¬ fits c f (sliceNumber e f src) = true := by
  rw [← exists_decodeSlice_iff_fits hn, Option.eq_none_iff_forall_ne_some, not_exists]

end Decode

/-! The two's-complement reading of a slice. -/

theorem signedRead_eq_toInt {m u : Nat} (hm : 0 < m) (hu : u < 2 ^ m) : signedRead m u = (BitVec.ofNat m u).toInt := by
  have hhalf : 2 ^ m = 2 * 2 ^ (m - 1) := by rw [← Nat.pow_succ', Nat.succ_eq_add_one, Nat.sub_add_cancel hm]
  rw [signedRead, BitVec.toInt_eq_toNat_cond, BitVec.toNat_ofNat, Nat.mod_eq_of_lt hu]
  push_cast
  exact if_congr (by omega) rfl rfl

theorem sliceNumber_signed_eq_toInt (e : Endian) {src : List Byte} (h : src.length ≠ 0) :
    sliceNumber e .signed src = (BitVec.ofNat (8 * src.length) (natOf e src)).toInt := by
  rw [sliceNumber, if_neg h, signedRead_eq_toInt (by omega) (natOf_lt_two_pow e src)]

/-- The represented sign is the sign of the number; the chunks that show it may be of any width, here one byte. -/
theorem sliceNumber_neg_iff (e : Endian) (f : Flavour) {src : List Byte} (h : src.length ≠ 0) :
    sliceNumber e f src < 0 ↔ isNegative f (msByte src e) = true := by
  have hle (l : List Byte) (hl : l.length ≠ 0) : sliceNumber .le f l < 0 ↔ isNegative f (msByte l .le) = true := by
    rw [sliceNumber_eq_chunks (Config.mk 0 1 .le 1) f l hl, ← chunkNumber, chunkNumber_neg_iff]
  cases e
  · rw [sliceNumber_be, msByte_be src h]
    exact hle _ (by simpa using h)
  · exact hle src h

theorem isNegative_signed_iff (b : Byte) : isNegative .signed b = true ↔ 0x80 ≤ b.toNat := by
  rw [isNegative, getLsbD_top 8 b (by decide), decide_eq_true_iff]
  omega

/-! Within capacity a slice always fits (R117, R137). -/

theorem fits_of_length_le {c : Config} (hn : 1 ≤ c.n) {src : List Byte} (h : src.length ≤ c.total) (e : Endian)
    (f : Flavour) : fits c f (sliceNumber e f src) = true := by
  by_cases h0 : src.length = 0
  · rw [← exists_decodeSlice_iff_fits hn, List.eq_nil_of_length_eq_zero h0, decodeSlice_nil]
    exact ⟨_, rfl⟩
  have hbits : 8 * src.length ≤ c.valBits := by rw [c.valBits_eq]; omega
  cases f
  · exact (fits_unsigned_natCast_iff c _).2
      (lt_of_lt_of_le (natOf_lt_two_pow e src) (Nat.pow_le_pow_right (by decide) hbits))
  · have hpow : (2 : Int) ^ (8 * src.length - 1) ≤ 2 ^ (c.valBits - 1) :=
      pow_le_pow_right₀ (by decide) (by omega)
    rw [sliceNumber_signed_eq_toInt e h0, fits_signed_iff]
    exact ⟨(neg_le_neg hpow).trans (BitVec.le_toInt _), BitVec.toInt_lt.trans_le hpow⟩

theorem exists_decodeSlice_of_length_le {c : Config} (hn : 1 ≤ c.n) {src : List Byte} (h : src.length ≤ c.total)
    (e : Endian) (f : Flavour) : ∃ x, decodeSlice c src e f = some x :=
  (exists_decodeSlice_iff_fits hn).2 (fits_of_length_le hn h e f)

theorem total_lt_length_of_decodeSlice_eq_none {c : Config} (hn : 1 ≤ c.n) {src : List Byte} {e : Endian}
    {f : Flavour} (h : decodeSlice c src e f = none) : c.total < src.length := by
  by_contra hle
  obtain ⟨x, hx⟩ := exists_decodeSlice_of_length_le hn (Nat.le_of_not_lt hle) e f
  rw [h] at hx
  cases hx

/-- Both readings of an exact slice have the slice's own bits. -/
theorem ofInt_sliceNumber_of_exact (c : Config) {src : List Byte} (h : src.length = c.total) (e : Endian)
    (f : Flavour) :
    BitVec.ofInt c.valBits (sliceNumber e f src) = BitVec.ofNat c.valBits (natOf e src) := by
  cases f
  · exact BitVec.ofInt_natCast _ _
  · by_cases h0 : src.length = 0
    · rw [List.eq_nil_of_length_eq_zero h0, sliceNumber_nil]
      cases e <;> simp [natOf]
    · have hbits : 8 * src.length = c.valBits := by rw [h, c.valBits_eq]
      rw [sliceNumber_signed_eq_toInt e h0, hbits, BitVec.ofInt_toInt]

/-- Settles O32: an exact slice fits, and both decodes are the pattern of its number. -/
theorem exactSliceDecodesAsTheArray : Obligations.ExactSliceDecodesAsTheArray := by
  intro c a e f hn ha
  exact (decodeSlice_eq_some_iff hn).2
    ⟨fits_of_length_le hn (Nat.le_of_eq ha) e f,
      (ofInt_sliceNumber_of_exact c ha e f).trans (fromBytes_eq c a e ha).symm⟩

/-- Settles O30: the empty slice decodes to the pattern of zeros, whose readings and digits are zero. -/
theorem emptySliceIsZero : Obligations.EmptySliceIsZero := by
  intro c e f
  refine ⟨0, decodeSlice_nil c e f, BitVec.toNat_zero, BitVec.toInt_zero, fun i _ => ?_⟩
  apply BitVec.eq_of_toNat_eq
  simp [toNat_digit]

end Sys2Proof.Machine
end

section
/-! PROOFS. The slice commands at the port (41_slice_decode.md R130 to R133, R143): result, completion, and the slices
that overflow. -/

namespace Sys2Proof.Machine

@[simp] theorem length_sliceOperand (s : State) : (sliceOperand s).length = sliceLength s := length_lanes _ _

section Port

variable {s : State} {e : Endian} {f : Flavour} (hw : s.cfg.wf = true) (hl : sliceLength s ≤ s.cfg.lmax)
include hw hl

theorem sliceCommand_of_length_le :
    sliceCommand e f s = .next (s.drive (sliceResponse s.cfg (decodeSlice s.cfg (sliceOperand s) e f))) := by
  rw [sliceCommand_eq, if_pos ((s.cfg.lengthOk_iff _).2 hl), respond_of_wf hw]

theorem sliceCommand_of_some {x : Value s.cfg} (h : decodeSlice s.cfg (sliceOperand s) e f = some x) :
    sliceCommand e f s = .next (s.drive (valueResult s.cfg x)) := by
  rw [sliceCommand_of_length_le hw hl, h, sliceResponse]

theorem sliceCommand_of_none (h : decodeSlice s.cfg (sliceOperand s) e f = none) :
    sliceCommand e f s = .next (s.drive (failure s.cfg .overflow)) := by
  rw [sliceCommand_of_length_le hw hl, h, sliceResponse]

end Port

/-! Signed overflow, in chunks (R130). -/

/-- The loop fails on filler that is not `sign_bits`, on a top chunk of the wrong sign, and on nothing else. -/
theorem signed_fail_iff (c : Config) (hn : 1 ≤ c.n) (neg : Bool) (ds : List (Digit c)) :
    (¬ ∀ j, (hj : j < ds.length) → verdict c .signed j ds[j] neg ≠ .fail) ↔
      (∃ i d, c.n ≤ i ∧ ds[i]? = some d ∧ d ≠ signBits c neg) ∨
        ∃ d, ds[c.n - 1]? = some d ∧ digitSign c d ≠ neg := by
  rw [noFail_iff c hn .signed neg nofun, not_and_or, or_comm]
  refine or_congr ?_ ?_
  · simp only [List.mem_iff_getElem?, List.getElem?_drop, not_forall]
    constructor
    · rintro ⟨d, ⟨j, hj⟩, hd⟩
      exact ⟨c.n + j, d, Nat.le_add_right _ _, hj, hd⟩
    · rintro ⟨i, d, hi, hget, hd⟩
      exact ⟨d, ⟨i - c.n, by rwa [Nat.add_sub_cancel' hi]⟩, hd⟩
  · simp only [forall_const, not_forall, List.getElem?_eq_some_iff]
    constructor
    · rintro ⟨h, hs⟩
      exact ⟨_, ⟨h, rfl⟩, hs⟩
    · rintro ⟨_, ⟨h, rfl⟩, hs⟩
      exact ⟨h, hs⟩

theorem decodeSlice_eq_none_iff_fail (c : Config) {src : List Byte} (h : src.length ≠ 0) (e : Endian) (f : Flavour) :
    decodeSlice c src e f = none ↔
      ¬ ∀ j, (hj : j < (chunkDigits c src e (padByte (isNegative f (msByte src e)))).length) →
        verdict c f j (chunkDigits c src e (padByte (isNegative f (msByte src e))))[j]
          (isNegative f (msByte src e)) ≠ .fail := by
  rw [decodeSlice_of_ne c src e f h, ite_eq_right_iff, imp_iff_not_or]
  simp only [reduceCtorEq, or_false]

theorem decodeSlice_signed_eq_none_iff {c : Config} (hn : 1 ≤ c.n) (src : List Byte) (e : Endian) :
    decodeSlice c src e .signed = none ↔
      c.total < src.length ∧
        ((∃ i d, c.n ≤ i ∧ (chunkDigits c src e (padByte (isNegative .signed (msByte src e))))[i]? = some d ∧
            d ≠ signBits c (isNegative .signed (msByte src e))) ∨
          ∃ d, (chunkDigits c src e (padByte (isNegative .signed (msByte src e))))[c.n - 1]? = some d ∧
            digitSign c d ≠ isNegative .signed (msByte src e)) := by
  rw [← signed_fail_iff c hn]
  constructor
  · intro h
    have hlong := total_lt_length_of_decodeSlice_eq_none hn h
    exact ⟨hlong, (decodeSlice_eq_none_iff_fail c (by omega) e .signed).1 h⟩
  · rintro ⟨hlong, hfail⟩
    exact (decodeSlice_eq_none_iff_fail c (by omega) e .signed).2 hfail

/-! Unsigned overflow, in bytes (R132, R133). -/

theorem leNat_lt_pow_iff (l : List Byte) (t : Nat) :
    leNat l < 256 ^ t ↔ ∀ j, t ≤ j → j < l.length → l.getD j 0 = 0x00#8 := by
  constructor
  · intro h j hj _
    apply BitVec.eq_of_toNat_eq
    rw [← leNat_div_mod, Nat.div_eq_of_lt (h.trans_le (Nat.pow_le_pow_right (by decide) hj))]
    rfl
  · intro h
    have hzero : l.drop t = List.replicate (l.drop t).length 0x00#8 := by
      refine List.eq_replicate_iff.2 ⟨rfl, fun b hb => ?_⟩
      obtain ⟨j, hj, rfl⟩ := List.getElem_of_mem hb
      rw [List.length_drop] at hj
      have := h (t + j) (Nat.le_add_right _ _) (by omega)
      rwa [List.getD_eq_getElem _ _ (by omega), ← List.getElem_drop] at this
    have hlow : leNat l = leNat (l.take t) := by
      conv_lhs => rw [← List.take_append_drop t l, hzero, leNat_append, leNat_replicate_zero]
      rfl
    rw [hlow]
    exact (leNat_lt _).trans_le (Nat.pow_le_pow_right (by decide) (List.length_take_le _ _))

theorem beNat_lt_pow_iff (l : List Byte) (t : Nat) :
    beNat l < 256 ^ t ↔ ∀ j, j < l.length - t → l.getD j 0 = 0x00#8 := by
  rw [← leNat_reverse, leNat_lt_pow_iff, List.length_reverse]
  constructor
  · intro h j hj
    have := h (l.length - 1 - j) (by omega) (by omega)
    rwa [List.getD_reverse _ (by omega), show l.length - 1 - (l.length - 1 - j) = j by omega] at this
  · intro h j hj hlt
    rw [List.getD_reverse _ hlt]
    exact h _ (by omega)

theorem decodeSlice_unsigned_eq_none_iff_le_natOf {c : Config} (hn : 1 ≤ c.n) (src : List Byte) (e : Endian) :
    decodeSlice c src e .unsigned = none ↔ ¬ natOf e src < 256 ^ c.total := by
  rw [decodeSlice_eq_none_iff_not_fits hn, sliceNumber, fits_unsigned_natCast_iff, c.two_pow_valBits]

theorem decodeSlice_be_unsigned_eq_none_iff {c : Config} (hn : 1 ≤ c.n) (src : List Byte) :
    decodeSlice c src .be .unsigned = none ↔
      c.total < src.length ∧ ∃ j, j < src.length - c.total ∧ src.getD j 0 ≠ 0x00#8 := by
  rw [decodeSlice_unsigned_eq_none_iff_le_natOf hn, natOf, beNat_lt_pow_iff]
  push Not
  exact ⟨fun ⟨j, hj, hd⟩ => ⟨by omega, j, hj, hd⟩, And.right⟩

theorem decodeSlice_le_unsigned_eq_none_iff {c : Config} (hn : 1 ≤ c.n) (src : List Byte) :
    decodeSlice c src .le .unsigned = none ↔
      c.total < src.length ∧ ∃ j, c.total ≤ j ∧ j < src.length ∧ src.getD j 0 ≠ 0x00#8 := by
  rw [decodeSlice_unsigned_eq_none_iff_le_natOf hn, natOf, leNat_lt_pow_iff]
  push Not
  exact ⟨fun ⟨j, hj, hlt, hd⟩ => ⟨by omega, j, hj, hlt, hd⟩, And.right⟩

/-! The corner cases. -/

section Corners

variable {c : Config} (hn : 1 ≤ c.n)
include hn

/-- The unsigned decode depends on the slice's number alone (R140). -/
theorem decodeSlice_unsigned_congr {e : Endian} {a b : List Byte} (h : natOf e a = natOf e b) :
    decodeSlice c a e .unsigned = decodeSlice c b e .unsigned := by
  have hnum : sliceNumber e .unsigned a = sliceNumber e .unsigned b := congrArg Int.ofNat h
  rw [decodeSlice_eq_closedDecode c hn, decodeSlice_eq_closedDecode c hn, closedDecode, closedDecode, hnum]

theorem decodeSlice_le_append_zeros (src : List Byte) (m : Nat) :
    decodeSlice c (src ++ List.replicate m 0x00#8) .le .unsigned = decodeSlice c src .le .unsigned :=
  decodeSlice_unsigned_congr hn (by rw [natOf, leNat_append, leNat_replicate_zero]; rfl)

theorem decodeSlice_be_zeros_append (src : List Byte) (m : Nat) :
    decodeSlice c (List.replicate m 0x00#8 ++ src) .be .unsigned = decodeSlice c src .be .unsigned := by
  rw [decodeSlice_be, List.reverse_append, List.reverse_replicate, decodeSlice_le_append_zeros hn, ← decodeSlice_be]

/-- One byte fits every value, and unsigned it is its own number. -/
theorem decodeSlice_unsigned_singleton (e : Endian) (b : Byte) :
    ∃ x, decodeSlice c [b] e .unsigned = some x ∧ x.toNat = b.toNat := by
  obtain ⟨x, hx⟩ := exists_decodeSlice_of_length_le hn (src := [b]) (c.total_pos hn) e .unsigned
  refine ⟨x, hx, (toNat_of_decodeSlice hn hx).trans ?_⟩
  cases e <;> simp [natOf, beNat]

/-- Within capacity the signed decode succeeds with the number of the slice. -/
theorem decodeSlice_signed_of_length_le {src : List Byte} (h : src.length ≤ c.total) (e : Endian) :
    ∃ x, decodeSlice c src e .signed = some x ∧ x.toInt = sliceNumber e .signed src := by
  obtain ⟨x, hx⟩ := exists_decodeSlice_of_length_le hn h e .signed
  exact ⟨x, hx, toInt_of_decodeSlice hn hx⟩

theorem decodeSlice_be_signed_0x80 :
    ∃ x, decodeSlice c [0x80#8] .be .signed = some x ∧ x.toInt = -128 ∧
      (x.toInt = -(2 : Int) ^ (c.valBits - 1) ↔ c.valBits = 8) := by
  obtain ⟨x, hx, hv⟩ := decodeSlice_signed_of_length_le hn (src := [0x80#8]) (c.total_pos hn) .be
  have hpow : (-128 : Int) = -(2 : Int) ^ 7 := by decide
  have hpos := c.valBits_pos hn
  refine ⟨x, hx, hv, ?_⟩
  rw [show x.toInt = -128 from hv, hpow, neg_inj, pow_right_inj₀ (by decide) (by decide)]
  omega

theorem decodeSlice_be_signed_0x0080 (h16 : 16 ≤ c.valBits) :
    ∃ x, decodeSlice c [0x00#8, 0x80#8] .be .signed = some x ∧ x.toInt = 128 := by
  rw [c.valBits_eq] at h16
  obtain ⟨x, hx, hv⟩ :=
    decodeSlice_signed_of_length_le hn (src := [0x00#8, 0x80#8]) (show 2 ≤ c.total by omega) .be
  exact ⟨x, hx, hv.trans (by decide)⟩

theorem decodeSlice_be_signed_exact_neg {a : List Byte} (ha : a.length = c.total) (hb : 0x80 ≤ (a.getD 0 0).toNat) :
    ∃ x, decodeSlice c a .be .signed = some x ∧ x.toInt < 0 := by
  have hpos := c.total_pos hn
  obtain ⟨x, hx, hv⟩ := decodeSlice_signed_of_length_le hn (Nat.le_of_eq ha) .be
  refine ⟨x, hx, ?_⟩
  rw [hv, sliceNumber_neg_iff .be .signed (by omega)]
  exact (isNegative_signed_iff _).2 hb

/-- A zero byte above a negative exact slice makes its pattern a positive number, too large by the sign bit. -/
theorem decodeSlice_be_signed_zero_cons_exact {a : List Byte} (ha : a.length = c.total)
    (hb : 0x80 ≤ (a.getD 0 0).toNat) : decodeSlice c (0x00#8 :: a) .be .signed = none := by
  have hpos := c.total_pos hn
  have hbits : 8 * a.length = c.valBits := by rw [ha, c.valBits_eq]
  have hlt := natOf_lt_two_pow .be a
  have hbig : 2 ^ (c.valBits - 1) ≤ beNat a := by
    by_contra hsmall
    have hneg := (sliceNumber_neg_iff .be .signed (by omega)).2 ((isNegative_signed_iff _).2 hb)
    rw [sliceNumber, if_neg (by omega), hbits, natOf, signedRead, if_pos (Nat.lt_of_not_le hsmall)] at hneg
    omega
  have hnum : sliceNumber .be .signed (0x00#8 :: a) = beNat a := by
    have hzero : beNat (0x00#8 :: a) = beNat a := by simp [beNat]
    rw [sliceNumber, if_neg (by simp), natOf, hzero, signedRead, if_pos]
    exact hlt.trans_le (Nat.pow_le_pow_right (by decide) (by rw [List.length_cons]; omega))
  rw [decodeSlice_eq_none_iff_not_fits hn, hnum, fits_signed_iff]
  rintro ⟨-, hfit⟩
  exact absurd hfit (not_lt.2 (by exact_mod_cast hbig))

end Corners

/-! The four commands. -/

/-- Settles O36: the command answers the decode, a decoded value reads as the number, and the loop fails exactly on the
chunks the rule names. -/
theorem intFromBeSliceResult : Obligations.IntFromBeSliceResult := by
  refine ⟨decode_encode .intFromBeSlice, fun s hw hl =>
    ⟨fun x hx => ⟨sliceCommand_of_some hw hl hx, toInt_of_decodeSlice (Config.wf_n hw) hx⟩,
      sliceCommand_of_none hw hl, ?overflow⟩, fun c hn =>
    ⟨decodeSlice_nil c _ _, decodeSlice_be_signed_0x80 hn, decodeSlice_be_signed_0x0080 hn, fun a ha hb =>
      ⟨decodeSlice_be_signed_exact_neg hn ha hb, decodeSlice_be_signed_zero_cons_exact hn ha hb⟩⟩,
    fun native => by cases native <;> rfl⟩
  case overflow =>
    rw [← length_sliceOperand]
    exact decodeSlice_signed_eq_none_iff (Config.wf_n hw) _ _

/-- Settles O37: as for the big-endian command, which is its mirror. -/
theorem intFromLeSliceResult : Obligations.IntFromLeSliceResult := by
  refine ⟨decode_encode .intFromLeSlice, fun s hw hl =>
    ⟨fun x hx => ⟨sliceCommand_of_some hw hl hx, toInt_of_decodeSlice (Config.wf_n hw) hx⟩,
      sliceCommand_of_none hw hl, decodeSlice_le _ _ _, ?overflow⟩,
    fun native => by cases native <;> rfl⟩
  case overflow =>
    rw [← length_sliceOperand]
    exact decodeSlice_signed_eq_none_iff (Config.wf_n hw) _ _

/-- Settles O38: the command answers the decode, and the number is too large exactly when an excess byte is not zero. -/
theorem uintFromBeSliceResult : Obligations.UintFromBeSliceResult := by
  refine ⟨decode_encode .uintFromBeSlice, fun s hw hl =>
    ⟨fun x hx => ⟨sliceCommand_of_some hw hl hx, toNat_of_decodeSlice (Config.wf_n hw) hx⟩,
      sliceCommand_of_none hw hl, ?overflow⟩, fun c hn =>
    ⟨decodeSlice_unsigned_singleton hn .be 0xFE#8, fun a ha =>
      exists_decodeSlice_of_length_le hn (Nat.le_of_eq ha) .be .unsigned, decodeSlice_be_zeros_append hn⟩,
    fun native => by cases native <;> exact ⟨rfl, rfl⟩⟩
  case overflow =>
    rw [← length_sliceOperand]
    exact decodeSlice_be_unsigned_eq_none_iff (Config.wf_n hw) _

/-- Settles O39: as for the big-endian command, which is its mirror. -/
theorem uintFromLeSliceResult : Obligations.UintFromLeSliceResult := by
  refine ⟨decode_encode .uintFromLeSlice, fun s hw hl =>
    ⟨fun x hx => ⟨sliceCommand_of_some hw hl hx, toNat_of_decodeSlice (Config.wf_n hw) hx⟩,
      sliceCommand_of_none hw hl, decodeSlice_le _ _ _, ?overflow⟩, fun c hn =>
    ⟨decodeSlice_unsigned_singleton hn .le 0xFE#8, fun a ha =>
      exists_decodeSlice_of_length_le hn (Nat.le_of_eq ha) .le .unsigned, decodeSlice_le_append_zeros hn⟩,
    fun native => by cases native <;> exact ⟨rfl, rfl⟩⟩
  case overflow =>
    rw [← length_sliceOperand]
    exact decodeSlice_le_unsigned_eq_none_iff (Config.wf_n hw) _

end Sys2Proof.Machine
end

section
/-! PROOFS. Exact-length arrays (42_exact_array.md): the array of a value in each order, byte by byte and digit by
digit, the value of an array, and the commands at the port. -/

namespace Sys2Proof.Machine

/-! The array and the value determine each other (R166). -/

section Inverse

variable (c : Config) (x : Value c) {a : List Byte} (e : Endian)

theorem toBytes_fromBytes (h : a.length = c.total) : toBytes c (fromBytes c a e) e = a :=
  natOf_inj e (by rw [length_toBytes, h]) (by rw [natOf_toBytes, toNat_fromBytes c a e h])

theorem fromBytes_toBytes : fromBytes c (toBytes c x e) e = x :=
  BitVec.eq_of_toNat_eq (by rw [toNat_fromBytes c _ e (length_toBytes c x e), natOf_toBytes])

/-- `T` bytes are the array of a value exactly when their number is the value's (R42). -/
theorem toBytes_eq_iff (h : a.length = c.total) : toBytes c x e = a ↔ x.toNat = natOf e a := by
  rw [← natOf_toBytes c x e]
  exact ⟨congrArg _, natOf_inj e (by rw [length_toBytes, h])⟩

/-- The two orders are each other's reversal (R168). -/
theorem toBytes_be_eq_reverse : toBytes c x .be = (toBytes c x .le).reverse := by
  rw [toBytes_be, toBytes_le]

/-- An array read in the other order is the swapped value (R165, R180). -/
theorem fromBytes_toBytes_of_ne {e e' : Endian} (h : e ≠ e') : fromBytes c (toBytes c x e) e' = swap c x := by
  cases e <;> cases e'
  case be.be | le.le => exact absurd rfl h
  case le.be => exact (swap_eq_fromBytes c x).symm
  case be.le =>
    rw [swap_eq_fromBytes, fromBytes_be_reverse c _ (length_toBytes c x .le), toBytes_be_eq_reverse]

end Inverse

/-! The array byte by byte (R42) and digit by digit (R43). -/

section Layout

variable (c : Config) (x : Value c)

theorem getD_toBytes_le {j : Nat} (h : j < c.total) : (toBytes c x .le).getD j 0 = byteAt x j := by
  rw [toBytes_le, lanes_getD, if_pos h]

theorem getD_toBytes_be {j : Nat} (h : j < c.total) :
    (toBytes c x .be).getD j 0 = byteAt x (c.total - 1 - j) := by
  rw [toBytes_be_eq_reverse, List.getD_reverse _ (by rwa [length_toBytes]), length_toBytes,
    getD_toBytes_le c x (by omega)]

/-- Lane `j` of `bytes_out` carries byte `j` of the array (R74). -/
theorem byteAt_packBytes {a : List Byte} (h : a.length = c.total) (j : Nat) :
    byteAt (packBytes c a) j = a.getD j 0 :=
  byteAt_ofNat_leNat _ a (by rw [h]) j

/-- The bytes of a digit lie inside the array. -/
theorem digitPosition_le_add_bytes_le {m : Nat} (h : m < c.n) : digitPosition c .le m + c.bytes ≤ c.total := by
  have hle : (m + 1) * c.bytes ≤ c.n * c.bytes := Nat.mul_le_mul_right _ h
  rwa [Nat.succ_mul] at hle

/-- A digit's big-endian position is its little-endian one counted from the end. -/
theorem digitPosition_be (m : Nat) : digitPosition c .be m = c.total - (digitPosition c .le m + c.bytes) := by
  rw [digitPosition, digitPosition, Config.total, Nat.sub_sub, Nat.sub_mul, Nat.add_comm 1, Nat.succ_mul]

theorem memRead_toBytes_le {m : Nat} (h : m < c.n) :
    memRead (toBytes c x .le) (digitPosition c .le m) c.bytes = digitToBytes c (digit c x m) .le := by
  have hlen := length_memRead (toBytes c x .le) (digitPosition c .le m) c.bytes
    (by rw [length_toBytes]; exact digitPosition_le_add_bytes_le c h)
  apply List.ext_getElem
  · rw [hlen, length_digitToBytes]
  · intro k hk _
    rw [hlen] at hk
    simp [memRead, toBytes_le, digitToBytes_le, lanes, digitPosition, byteAt_digit c x m k hk]

/-- Each digit's bytes stand at its position: the write loop read back (R160, R161). -/
theorem memRead_toBytes {m : Nat} (e : Endian) (h : m < c.n) :
    memRead (toBytes c x e) (digitPosition c e m) c.bytes = digitToBytes c (digit c x m) e := by
  cases e
  case le => exact memRead_toBytes_le c x h
  case be =>
    have hrev := memRead_reverse (toBytes c x .be) (digitPosition c .le m) c.bytes
      (by rw [length_toBytes]; exact digitPosition_le_add_bytes_le c h)
    rw [length_toBytes, ← digitPosition_be, toBytes_be_eq_reverse, List.reverse_reverse,
      memRead_toBytes_le c x h] at hrev
    rw [digitToBytes_be, ← digitToBytes_le, ← hrev, List.reverse_reverse, toBytes_be_eq_reverse]

/-- Each digit is read from its position: the read loop (R163, R164). -/
theorem digit_fromBytes {a : List Byte} {m : Nat} (e : Endian) (ha : a.length = c.total) (h : m < c.n) :
    digit c (fromBytes c a e) m = bytesToDigit c (memRead a (digitPosition c e m) c.bytes) e := by
  conv_rhs => rw [← toBytes_fromBytes c e ha, memRead_toBytes c _ e h, bytesToDigit_digitToBytes]

end Layout

/-! The sign is bit 7 of the most-significant byte. -/

section Sign

variable {c : Config} (hn : 1 ≤ c.n) (e : Endian)
include hn

/-- An array is negative as the exact slice of the same bytes is (R138). -/
theorem toInt_fromBytes_neg_iff {a : List Byte} (ha : a.length = c.total) :
    (fromBytes c a e).toInt < 0 ↔ isNegative .signed (msByte a e) = true := by
  have hpos := c.total_pos hn
  rw [toInt_of_decodeSlice hn (exactSliceDecodesAsTheArray c a e .signed hn ha),
    sliceNumber_neg_iff e .signed (by omega)]

theorem getLsbD_msByte_toBytes (x : Value c) :
    (msByte (toBytes c x e) e).getLsbD 7 = x.getLsbD (c.valBits - 1) := by
  have hsign := toInt_fromBytes_neg_iff hn e (length_toBytes c x e)
  rw [fromBytes_toBytes] at hsign
  rw [Bool.eq_iff_iff, ← BitVec.msb_eq_getLsbD_last x, BitVec.msb_eq_toInt, decide_eq_true_iff]
  exact hsign.symm

end Sign

/-! The corner cases: 0, −1 and the most negative value. -/

section Corners

variable {c : Config} {x : Value c}

/-- An array of equal bytes is the same in both orders. -/
theorem toBytes_eq_replicate {b : Byte} (e : Endian) (h : x.toNat = leNat (List.replicate c.total b)) :
    toBytes c x e = List.replicate c.total b := by
  have hle : toBytes c x .le = List.replicate c.total b :=
    (toBytes_eq_iff c x .le List.length_replicate).2 h
  cases e
  · rw [toBytes_be_eq_reverse, hle, List.reverse_replicate]
  · exact hle

theorem toBytes_of_eq_zero (e : Endian) (h : x = 0) : toBytes c x e = List.replicate c.total 0x00#8 :=
  toBytes_eq_replicate e (by rw [h, leNat_replicate_zero]; rfl)

theorem toBytes_of_toInt_eq_neg_one (e : Endian) (h : x.toInt = -1) :
    toBytes c x e = List.replicate c.total 0xFF#8 := by
  have hx : x.toNat + 1 = 2 ^ c.valBits := by
    rw [BitVec.toInt_eq_toNat_cond] at h
    split at h <;> omega
  have hff := leNat_replicate_ff c.total
  rw [← c.two_pow_valBits] at hff
  exact toBytes_eq_replicate e (by omega)

theorem toNat_of_toInt_eq_min (hn : 1 ≤ c.n) (h : x.toInt = -(2 : Int) ^ (c.valBits - 1)) :
    x.toNat = 2 ^ (c.valBits - 1) := by
  have hpos := c.valBits_pos hn
  rw [← BitVec.toInt_intMin_of_pos hpos, BitVec.toInt_inj] at h
  rw [h, BitVec.toNat_intMin_of_pos hpos]

/-- The most negative value is its sign bit alone. -/
theorem toBytes_le_of_toInt_eq_min (hn : 1 ≤ c.n) (h : x.toInt = -(2 : Int) ^ (c.valBits - 1)) :
    toBytes c x .le = List.replicate (c.total - 1) 0x00#8 ++ [0x80#8] := by
  have hpos := c.total_pos hn
  have hbits : c.valBits - 1 = 8 * (c.total - 1) + 7 := by rw [c.valBits_eq]; omega
  rw [toBytes_eq_iff c x .le (by simp; omega), toNat_of_toInt_eq_min hn h, hbits, natOf, leNat_append,
    leNat_replicate_zero, List.length_replicate, Nat.pow_add, Nat.pow_mul]
  simp

theorem toBytes_be_of_toInt_eq_min (hn : 1 ≤ c.n) (h : x.toInt = -(2 : Int) ^ (c.valBits - 1)) :
    toBytes c x .be = 0x80#8 :: List.replicate (c.total - 1) 0x00#8 := by
  rw [toBytes_be_eq_reverse, toBytes_le_of_toInt_eq_min hn h]
  simp

end Corners

/-! The commands at the port. -/

@[simp] theorem length_arrayOperand (s : State) : (arrayOperand s).length = s.cfg.total := length_lanes _ _

theorem getD_arrayOperand {s : State} {j : Nat} (h : j < s.cfg.total) :
    (arrayOperand s).getD j 0 = byteAt s.inp.bytesIn j := by
  rw [arrayOperand, lanes_getD, if_pos h]

section Port

variable {s : State} (hw : s.cfg.wf = true)
include hw

theorem toBytesCommand_of_wf (o : ByteOrder) :
    toBytesCommand o s = .next (s.drive (bytesResult s.cfg (toBytes s.cfg s.inp.valIn (resolve s.cfg o)))) :=
  respond_of_wf hw _

theorem fromBytesCommand_of_wf (o : ByteOrder) :
    fromBytesCommand o s =
      .next (s.drive (valueResult s.cfg (fromBytes s.cfg (arrayOperand s) (resolve s.cfg o)))) :=
  respond_of_wf hw _

theorem toInt_fromBytes_arrayOperand_neg_iff (e : Endian) :
    (fromBytes s.cfg (arrayOperand s) e).toInt < 0 ↔ 0x80 ≤ (msByte (arrayOperand s) e).toNat := by
  rw [toInt_fromBytes_neg_iff (Config.wf_n hw) e (length_arrayOperand s), isNegative_signed_iff]

end Port

/-- Settles O40: the array is the value's bytes from the top, so each clause is the layout or a corner case of it. -/
theorem toBeBytesResult : Obligations.ToBeBytesResult := by
  refine ⟨decode_encode .uintToBeBytes, decode_encode .intToBeBytes, fun i s hi hw => ?_, fun native lmax =>
    (toBytes_eq_iff ⟨1, 2, native, lmax⟩ _ .be rfl).2 rfl⟩
  have hn := Config.wf_n hw
  have hlen := length_toBytes s.cfg s.inp.valIn .be
  refine ⟨toBytes s.cfg s.inp.valIn .be, ?completes, hlen,
    fun j hj => ⟨byteAt_packBytes _ hlen j, getD_toBytes_be _ _ hj⟩,
    fun m hm => memRead_toBytes _ _ .be hm,
    toBytes_of_eq_zero .be, toBytes_of_toInt_eq_neg_one .be, toBytes_be_of_toInt_eq_min hn,
    getLsbD_msByte_toBytes hn .be _⟩
  case completes => rcases hi with rfl | rfl <;> exact toBytesCommand_of_wf hw .be

/-- Settles O41: the array is the value's bytes from the bottom, the mirror of the big-endian one. -/
theorem toLeBytesResult : Obligations.ToLeBytesResult := by
  refine ⟨decode_encode .uintToLeBytes, decode_encode .intToLeBytes, fun i s hi hw => ?_, fun native lmax =>
    (toBytes_eq_iff ⟨1, 2, native, lmax⟩ _ .le rfl).2 rfl⟩
  have hn := Config.wf_n hw
  have hlen := length_toBytes s.cfg s.inp.valIn .le
  refine ⟨toBytes s.cfg s.inp.valIn .le, ?completes, hlen,
    fun j hj => ⟨byteAt_packBytes _ hlen j, getD_toBytes_le _ _ hj⟩,
    fun m hm => memRead_toBytes _ _ .le hm,
    toBytes_of_eq_zero .le, toBytes_of_toInt_eq_neg_one .le, toBytes_le_of_toInt_eq_min hn, ?sign⟩
  case completes => rcases hi with rfl | rfl <;> exact toBytesCommand_of_wf hw .le
  case sign =>
    rw [← hlen]
    exact getLsbD_msByte_toBytes hn .le _

/-- Settles O43: the value of the array has its number and is read digit by digit; its sign is that of byte 0. -/
theorem fromBeBytesResult : Obligations.FromBeBytesResult := by
  refine ⟨decode_encode .uintFromBeBytes, decode_encode .intFromBeBytes, fun i s hi hw =>
    ⟨fromBytes s.cfg (arrayOperand s) .be, ?completes, toNat_fromBytes _ _ .be (length_arrayOperand s),
      fun m hm => digit_fromBytes _ .be (length_arrayOperand s) hm, ?sign⟩,
    fun native lmax => fromBytes_be ⟨1, 2, native, lmax⟩ _ rfl⟩
  case completes => rcases hi with rfl | rfl <;> exact fromBytesCommand_of_wf hw .be
  case sign =>
    rw [toInt_fromBytes_arrayOperand_neg_iff hw, msByte, getD_arrayOperand (Config.total_pos (Config.wf_n hw))]

/-- Settles O44: as for the big-endian command, with the sign in byte `T−1`. -/
theorem fromLeBytesResult : Obligations.FromLeBytesResult := by
  refine ⟨decode_encode .uintFromLeBytes, decode_encode .intFromLeBytes, fun i s hi hw =>
    ⟨fromBytes s.cfg (arrayOperand s) .le, ?completes, toNat_fromBytes _ _ .le (length_arrayOperand s),
      fun m hm => digit_fromBytes _ .le (length_arrayOperand s) hm, ?sign⟩,
    fun native lmax => fromBytes_le ⟨1, 2, native, lmax⟩ _ rfl⟩
  case completes => rcases hi with rfl | rfl <;> exact fromBytesCommand_of_wf hw .le
  case sign =>
    have hpos := Config.total_pos (Config.wf_n hw)
    rw [toInt_fromBytes_arrayOperand_neg_iff hw, msByte, length_arrayOperand, getD_arrayOperand (by omega)]

/-- Settles O45: the native order resolves to a fixed one; read in its own order an array gives back its value, in the
other order the swap. -/
theorem fromNeBytesResult : Obligations.FromNeBytesResult := by
  refine ⟨decode_encode .uintFromNeBytes, decode_encode .intFromNeBytes, fun i s hi hw => ?_, fun native lmax =>
    ⟨fromBytes_be ⟨1, 2, native, lmax⟩ _ rfl, fromBytes_le ⟨1, 2, native, lmax⟩ _ rfl⟩⟩
  have hnat := toNat_fromBytes s.cfg (arrayOperand s) s.cfg.native (length_arrayOperand s)
  refine ⟨fromBytes s.cfg (arrayOperand s) s.cfg.native, ?completes, fun h => ?be, fun h => ?le,
    fun y ha => (congrArg (fromBytes s.cfg · _) ha).trans (fromBytes_toBytes _ y _),
    fun y e he ha => (congrArg (fromBytes s.cfg · _) ha).trans (fromBytes_toBytes_of_ne _ y he)⟩
  case completes => rcases hi with rfl | rfl <;> exact fromBytesCommand_of_wf hw .ne
  case be | le =>
    rw [h] at hnat ⊢
    exact ⟨rfl, hnat⟩

end Sys2Proof.Machine
end

section
/-! PROOFS. Whole-value reinterpretation (43_whole_value.md R180 to R185): the swap on the array of a value, the two
orders by `NATIVE`, and the commands at the port. -/

namespace Sys2Proof.Machine

/-! The swap (R180) exchanges the two arrays of a value. -/

/-- The swap of a value is the one whose big-endian array is the value's little-endian one. -/
theorem swap_eq_of_toBytes {c : Config} {x y : Value c} (h : toBytes c x .le = toBytes c y .be) : swap c x = y := by
  rw [swap_eq_fromBytes, h, fromBytes_toBytes]

section Swap

variable (c : Config) (x : Value c)

theorem toBytes_swap {e e' : Endian} (h : e ≠ e') : toBytes c (swap c x) e' = toBytes c x e := by
  rw [← fromBytes_toBytes_of_ne c x h, toBytes_fromBytes c e' (length_toBytes c x e)]

@[simp] theorem swap_swap : swap c (swap c x) = x := swap_eq_of_toBytes (toBytes_swap c x (by decide))

/-- A palindrome has the same array in both orders. -/
theorem swap_eq_self_of_palindrome (h : ∀ m, m < c.total → byteAt x m = byteAt x (c.total - 1 - m)) :
    swap c x = x := by
  refine swap_eq_of_toBytes ?_
  rw [toBytes_le, toBytes_be, lanes_reverse]
  exact List.map_congr_left fun m hm => h m (List.mem_range.1 hm)

/-- The one byte of a value is its own mirror image. -/
theorem swap_eq_self_of_total_eq_one (h : c.total = 1) : swap c x = x :=
  swap_eq_self_of_palindrome c x fun m hm => by rw [show c.total - 1 - m = m by omega]

end Swap

/-- The example of R180. -/
theorem swap_0x12345678 (native : Endian) (lmax : Nat) :
    swap ⟨1, 2, native, lmax⟩ 0x12345678#32 = 0x78563412#32 := by
  have hle := (toBytes_eq_iff ⟨1, 2, native, lmax⟩ 0x12345678#32 (a := [0x78#8, 0x56#8, 0x34#8, 0x12#8]) .le rfl).2 rfl
  have hbe := (toBytes_eq_iff ⟨1, 2, native, lmax⟩ 0x78563412#32 (a := [0x78#8, 0x56#8, 0x34#8, 0x12#8]) .be rfl).2 rfl
  exact swap_eq_of_toBytes (hle.trans hbe.symm)

/-! Reordering by `NATIVE` (R181 to R185). -/

section Order

variable {c : Config} {e : Endian} {x : Value c}

theorem toOrder_of_native_eq (h : c.native = e) : toOrder c e x = x := if_pos h

theorem toOrder_of_native_ne (h : c.native ≠ e) : toOrder c e x = swap c x := if_neg h

/-- What the swap leaves alone, either order leaves alone. -/
theorem toOrder_of_swap_eq_self (h : swap c x = x) : toOrder c e x = x := by
  by_cases hn : c.native = e
  · exact toOrder_of_native_eq hn
  · exact (toOrder_of_native_ne hn).trans h

theorem toOrder_toOrder : toOrder c e (toOrder c e x) = x := by
  by_cases hn : c.native = e
  · simp only [toOrder_of_native_eq hn]
  · simp only [toOrder_of_native_ne hn, swap_swap]

end Order

/-- TO_ORDER and FROM_ORDER give one operation (R183, R184). -/
theorem fromOrder_eq_toOrder (c : Config) (e : Endian) (x : Value c) : fromOrder c e x = toOrder c e x := rfl

/-- Settles O51: the four commands answer the reordered value, which is the value or its swap by `NATIVE`, and the swap
leaves a palindrome alone. -/
theorem toBeAndFromBeResult : Obligations.ToBeAndFromBeResult := by
  refine ⟨decode_encode .uintToBe, decode_encode .intToBe, decode_encode .uintFromBe, decode_encode .intFromBe,
    fun i s hi hw => ⟨toOrder s.cfg .be s.inp.valIn, ?completes, toOrder_of_native_eq,
      fun h => toOrder_of_native_ne (by rw [h]; decide),
      fun h => toOrder_of_swap_eq_self (swap_eq_self_of_palindrome _ _ h),
      fun h => toOrder_of_swap_eq_self (swap_eq_self_of_total_eq_one _ _ h)⟩,
    fun lmax => ⟨swap_0x12345678 .le lmax, toOrder_of_native_eq rfl, swap_0x12345678 .le lmax, toOrder_of_native_eq rfl⟩⟩
  case completes => rcases hi with rfl | rfl | rfl | rfl <;> exact exec_of_wf _ hw

/-- Settles O52: as for the big-endian commands, with the two native orders exchanged. -/
theorem toLeAndFromLeResult : Obligations.ToLeAndFromLeResult := by
  refine ⟨decode_encode .uintToLe, decode_encode .intToLe, decode_encode .uintFromLe, decode_encode .intFromLe,
    fun i s hi hw => ⟨toOrder s.cfg .le s.inp.valIn, ?completes, toOrder_of_native_eq,
      fun h => toOrder_of_native_ne (by rw [h]; decide),
      fun h => toOrder_of_swap_eq_self (swap_eq_self_of_palindrome _ _ h),
      fun h => toOrder_of_swap_eq_self (swap_eq_self_of_total_eq_one _ _ h)⟩,
    fun lmax => ⟨toOrder_of_native_eq rfl, swap_0x12345678 .be lmax, toOrder_of_native_eq rfl, swap_0x12345678 .be lmax⟩⟩
  case completes => rcases hi with rfl | rfl | rfl | rfl <;> exact exec_of_wf _ hw

/-- Settles O53: each operation is the identity or the swap, whichever `NATIVE` is, and both are involutions. -/
theorem wholeValueInvolution : Obligations.WholeValueInvolution := by
  intro c e x
  simp only [fromOrder_eq_toOrder]
  exact ⟨toOrder_toOrder, toOrder_toOrder⟩

end Sys2Proof.Machine
end

section
/-! PROOFS. The machine against its closed forms (10_state.md R20, 20_memory.md R42, 41_slice_decode.md R140,
43_whole_value.md R180): each family's response is the spec's formula on whole numbers. -/

namespace Sys2Proof.Machine

/-- The write loops lay a value out by position (R42). -/
theorem toBytes_eq_layout (c : Config) (x : Value c) (e : Endian) : toBytes c x e = layout c.total e x.toNat := by
  cases e
  · rw [toBytes_be, lanes_reverse]
    rfl
  · rw [toBytes_le]
    rfl

/-- The swap, digit by digit, reverses the bytes of the whole pattern (R180). -/
theorem swap_eq_reverseValue (c : Config) (x : Value c) : swap c x = reverseValue c x := by
  rw [reverseValue, ← toBytes_eq_layout, ← fromBytes_le c _ (length_toBytes c x .be),
    fromBytes_toBytes_of_ne c x (by decide)]

theorem toOrder_eq_closedOrder (c : Config) (e : Endian) (x : Value c) : toOrder c e x = closedOrder c e x := by
  rw [toOrder, closedOrder, swap_eq_reverseValue]

/-- The response of every command is its closed form. -/
theorem commandResponse_eq_closedCommand {s : State} (hn : 1 ≤ s.cfg.n) (i : Instr) :
    commandResponse s i = closedCommand s.cfg s.inp i := by
  rcases hf : i.fields with ⟨f, fam, o⟩
  cases fam <;> simp only [commandResponse, closedCommand, hf]
  case fromBytes =>
    rw [fromBytes_eq _ _ _ (length_arrayOperand s)]
    rfl
  case toBytes =>
    rw [toBytes_eq_layout]
    rfl
  case fromSlice =>
    simp only [Config.lengthOk_iff, decodeSlice_eq_closedDecode s.cfg hn]
    rfl
  case toOrder | fromOrder =>
    rw [toOrder_eq_closedOrder]
    rfl

theorem closedResponse_of_decode {c : Config} {r : Inputs c} {i : Instr} (h : decode r.cmd = .ok i) :
    closedResponse c r = closedCommand c r i := by
  rw [closedResponse, h]

theorem closedResponse_of_reject {c : Config} {r : Inputs c} {e : Reject} (h : decode r.cmd = .error e) :
    closedResponse c r = failure c .illegal := by
  rw [closedResponse, h]

/-- Settles O11: a reserved word is refused by both, and a command's response is its closed form, where the slice decode
is the number if it fits, the arrays are the layout and the swap is the reversal. -/
theorem everyStepComputesTheClosedForms : Obligations.EveryStepComputesTheClosedForms := by
  intro s hw
  cases hd : decode s.inp.cmd with
  | ok i =>
    rw [step_of_decode hd, exec_of_wf i hw, closedResponse_of_decode hd,
      commandResponse_eq_closedCommand (Config.wf_n hw)]
  | error r => rw [step_of_reject hd, closedResponse_of_reject hd, illegal, respond_of_wf hw]

end Sys2Proof.Machine
end

section
/-! PROOFS. What a command and a step can answer (30_encoding.md R75, R76, R82; 60_exceptions.md R200 to R203): one case
analysis of the response, and from it the frame, completion, the overflow condition and the port contract. -/

namespace Sys2Proof.Machine

/-- The slice a command would decode, in its own order and flavour. -/
def decodedSlice (s : State) (i : Instr) : Option (Value s.cfg) :=
  decodeSlice s.cfg (sliceOperand s) (resolve s.cfg i.fields.2.2) i.fields.1

/-- All that a command's response can be, and when. -/
inductive Answers (s : State) (i : Instr) : Outputs s.cfg → Prop
  /-- A value from a family that cannot fail. -/
  | value (hi : i.isSlice = false) (x : Value s.cfg) : Answers s i (valueResult s.cfg x)
  /-- An array, from TO_BYTES alone. -/
  | array (hi : i.fields.2.1 = .toBytes) (a : List Byte) : Answers s i (bytesResult s.cfg a)
  /-- A slice that decodes. -/
  | decoded (hi : i.isSlice = true) (hl : sliceLength s ≤ s.cfg.lmax) (x : Value s.cfg)
      (h : decodedSlice s i = some x) : Answers s i (valueResult s.cfg x)
  /-- A slice that does not fit. -/
  | overflow (hi : i.isSlice = true) (hl : sliceLength s ≤ s.cfg.lmax) (h : decodedSlice s i = none) :
      Answers s i (failure s.cfg .overflow)
  /-- A slice longer than the port. -/
  | tooLong (hi : i.isSlice = true) (hl : s.cfg.lmax < sliceLength s) : Answers s i (failure s.cfg .illegal)

theorem commandResponse_answers (s : State) (i : Instr) : Answers s i (commandResponse s i) := by
  rcases hf : i.fields with ⟨f, fam, o⟩
  cases fam <;> simp only [commandResponse, hf]
  case fromBytes | toOrder | fromOrder => exact .value (by simp [Instr.isSlice, hf]) _
  case toBytes => exact .array (by rw [hf]) _
  case fromSlice =>
    have hi : i.isSlice = true := by simp [Instr.isSlice, hf]
    have hdec : decodedSlice s i = decodeSlice s.cfg (sliceOperand s) (resolve s.cfg o) f := by
      rw [decodedSlice, hf]
    rw [← hdec]
    split
    · next hl =>
      rw [Config.lengthOk_iff] at hl
      cases hx : decodedSlice s i with
      | some x => exact .decoded hi hl x hx
      | none => exact .overflow hi hl hx
    · next hl => exact .tooLong hi (by simpa using hl)

section Answers

variable {s : State} {i : Instr} {o : Outputs s.cfg} (h : Answers s i o)
include h

theorem Answers.noPartialValue (hs : o.status ≠ .ok) : o.valOut = 0 ∧ o.bytesOut = 0 := by
  cases h
  case value | array | decoded => exact absurd rfl hs
  case overflow | tooLong => exact ⟨rfl, rfl⟩

theorem Answers.oneResultBus (hb : o.bytesOut ≠ 0) : o.valOut = 0 ∧ i.fields.2.1 = .toBytes := by
  cases h
  case array hi a => exact ⟨rfl, hi⟩
  all_goals exact absurd rfl hb

theorem Answers.status_overflow_iff :
    o.status = .overflow ↔ i.isSlice = true ∧ sliceLength s ≤ s.cfg.lmax ∧ decodedSlice s i = none := by
  cases h
  case value hi x => simp [hi]
  case array hi a => simp [Instr.isSlice, hi]
  case decoded hi hl x hx => simp [hx]
  case overflow hi hl hx => simp [hi, hl, hx]
  case tooLong hi hl => simp [Nat.not_le.2 hl]

theorem Answers.status_illegal_iff :
    o.status = .illegal ↔ i.isSlice = true ∧ s.cfg.lmax < sliceLength s := by
  cases h
  case value hi x => simp [hi]
  case array hi a => simp [Instr.isSlice, hi]
  case decoded hi hl x hx => simp [Nat.not_lt.2 hl]
  case overflow hi hl hx => simp [Nat.not_lt.2 hl]
  case tooLong hi hl => simp [hi, hl]

theorem Answers.eq_overflow_iff : o = failure s.cfg .overflow ↔ o.status = .overflow := by
  constructor
  · rintro rfl
    rfl
  · intro hs
    cases h
    case overflow => rfl
    all_goals cases hs

/-- The statuses of each family (R76). -/
theorem Answers.status_ok_or_overflow (hl : i.isSlice = true → sliceLength s ≤ s.cfg.lmax) :
    o.status = .ok ∨ o.status = .overflow := by
  cases h
  case value | array | decoded => exact .inl rfl
  case overflow => exact .inr rfl
  case tooLong hi hlt => exact absurd (hl hi) (Nat.not_le.2 hlt)

end Answers

/-- An overflowing slice is longer than the value (R117). -/
theorem total_lt_sliceLength_of_decodedSlice_eq_none {s : State} {i : Instr} (hn : 1 ≤ s.cfg.n)
    (h : decodedSlice s i = none) : s.cfg.total < sliceLength s := by
  rw [← length_sliceOperand]
  exact total_lt_length_of_decodeSlice_eq_none hn h

theorem Requests.unique {s : State} {i j : Instr} (hi : Requests s i) (hj : Requests s j) : i = j :=
  Except.ok.inj (hi.symm.trans hj)

theorem PortContract.drive_answer {s : State} {i : Instr} {o : Outputs s.cfg} (hw : s.cfg.wf = true)
    (hi : Requests s i) (h : Answers s i o) : PortContract (s.drive o) where
  parameters := hw
  noPartialValue := h.noPartialValue
  oneResultBus hb := by
    obtain ⟨hv, hfam⟩ := h.oneResultBus hb
    exact ⟨hv, i, hi, hfam⟩
  overflowOnlyFromLongSlices hs := by
    obtain ⟨hslice, hl, hnone⟩ := h.status_overflow_iff.1 hs
    exact ⟨⟨i, hi, hslice⟩, total_lt_sliceLength_of_decodedSlice_eq_none (Config.wf_n hw) hnone, hl⟩
  illegalExactly := by
    constructor
    · intro hs
      obtain ⟨hslice, hl⟩ := h.status_illegal_iff.1 hs
      exact .inr ⟨⟨i, hi, hslice⟩, hl⟩
    · rintro (⟨r, hr⟩ | ⟨⟨j, hj, hslice⟩, hl⟩)
      · exact absurd (hi.symm.trans hr) nofun
      · exact h.status_illegal_iff.2 ⟨hi.unique hj ▸ hslice, hl⟩

theorem PortContract.drive_illegal {s : State} {r : Reject} (hw : s.cfg.wf = true)
    (hr : decode s.inp.cmd = .error r) : PortContract (s.drive (failure s.cfg .illegal)) where
  parameters := hw
  noPartialValue _ := ⟨rfl, rfl⟩
  oneResultBus hb := absurd rfl hb
  overflowOnlyFromLongSlices := nofun
  illegalExactly := ⟨fun _ => .inl ⟨r, hr⟩, fun _ => rfl⟩

/-- A step establishes the contract from any state: it answers a command's response or the refusal of a reserved word. -/
theorem PortContract.of_step_next {s t : State} (h : step s = .next t) : PortContract t := by
  obtain ⟨hw, ⟨i, hi, rfl⟩ | ⟨r, hr, rfl⟩⟩ := step_next h
  · exact .drive_answer hw hi (commandResponse_answers s i)
  · exact .drive_illegal hw hr

/-- Settles O10: the contract after a step rests on the step alone, not on what the outputs were before it. -/
theorem everyStepKeepsThePortContract : Obligations.EveryStepKeepsThePortContract :=
  fun _ _ _ => PortContract.of_step_next

/-- Settles O6: every next state is the old one with a driven response. -/
theorem operationsDriveOnlyTheOutputs : Obligations.OperationsDriveOnlyTheOutputs := by
  refine ⟨fun i s t h => ⟨_, (exec_next h).2⟩, fun s t h => ?_⟩
  obtain ⟨-, ⟨i, -, ht⟩ | ⟨r, -, ht⟩⟩ := step_next h
  · exact ⟨_, ht⟩
  · exact ⟨_, ht⟩

/-- Settles O7: the response of a well-formed block is driven, with the statuses of its family. -/
theorem everyCommandCompletes : Obligations.EveryCommandCompletes := by
  intro i s hw
  exact ⟨commandResponse s i, exec_of_wf i hw, commandResponse_status_of_not_slice s, fun _ hl =>
    (commandResponse_answers s i).status_ok_or_overflow fun _ => hl⟩

theorem State.drive_inj {s : State} {o o' : Outputs s.cfg} : s.drive o = s.drive o' ↔ o = o' := by
  simp [State.drive]

/-- Settles O17: the response is `OVERFLOW` exactly when the decode is nothing, which by R140 says that the number does
not fit; no failure drives a bus. -/
theorem overflowExactlyWhenTheNumberDoesNotFit : Obligations.OverflowExactlyWhenTheNumberDoesNotFit := by
  intro i s hw
  have hans := commandResponse_answers s i
  refine ⟨?_, fun t ht hs => ?_⟩
  · rw [exec_of_wf i hw, Host.Outcome.next.injEq, State.drive_inj]
    refine hans.eq_overflow_iff.trans (hans.status_overflow_iff.trans ?_)
    rw [decodedSlice, decodeSlice_eq_none_iff_not_fits (Config.wf_n hw), Bool.not_eq_true]
  · obtain ⟨-, rfl⟩ := exec_next ht
    exact hans.noPartialValue (by rw [← State.drive_out s (commandResponse s i), hs]; decide)

end Sys2Proof.Machine
end

section
/-! PROOFS. What a response does not depend on (30_encoding.md R72, R82; 10_state.md R20, R35): the ports and lanes a
family does not read, `native_big`, the flavour, and earlier results. -/

namespace Sys2Proof.Machine

theorem lanes_congr {m m' n : Nat} {x : BitVec m} {y : BitVec m'} (h : ∀ j, j < n → byteAt x j = byteAt y j) :
    lanes x n = lanes y n :=
  List.map_congr_left fun j hj => h j (List.mem_range.1 hj)

theorem lanes_eq_of_toNat_eq {m m' : Nat} {x : BitVec m} {y : BitVec m'} (h : x.toNat = y.toNat) (n : Nat) :
    lanes x n = lanes y n :=
  lanes_congr fun j _ => by rw [byteAt_eq_ofNat_shiftRight, byteAt_eq_ofNat_shiftRight, h]

/-- The request agrees with another on all that a family reads (R82). -/
def AgreeOnRead {c : Config} (fam : Family) (r r' : Inputs c) : Prop :=
  match fam with
  | .fromBytes => ∀ j, j < c.total → byteAt r.bytesIn j = byteAt r'.bytesIn j
  | .toBytes => r.valIn = r'.valIn
  | .fromSlice => r.lenIn = r'.lenIn ∧ ∀ j, j < r.lenIn.toNat → byteAt r.bytesIn j = byteAt r'.bytesIn j
  | .toOrder => r.valIn = r'.valIn
  | .fromOrder => r.valIn = r'.valIn

/-- A response is a function of what its family reads. -/
theorem commandResponse_congr {i : Instr} {c : Config} {r r' : Inputs c} (o o' : Outputs c)
    (h : AgreeOnRead i.fields.2.1 r r') : commandResponse ⟨c, r, o⟩ i = commandResponse ⟨c, r', o'⟩ i := by
  rcases hf : i.fields with ⟨f, fam, ord⟩
  rw [hf] at h
  cases fam <;> simp only [commandResponse, hf]
  case fromBytes => rw [arrayOperand, arrayOperand, lanes_congr h]
  case toBytes | toOrder | fromOrder =>
    rw [valueOperand, valueOperand, show r.valIn = r'.valIn from h]
  case fromSlice =>
    obtain ⟨hlen, hbytes⟩ := h
    have hl : sliceLength ⟨c, r, o⟩ = sliceLength ⟨c, r', o'⟩ := congrArg BitVec.toNat hlen
    have hsrc : sliceOperand ⟨c, r, o⟩ = sliceOperand ⟨c, r', o'⟩ := by
      rw [sliceOperand, sliceOperand, ← hl]
      exact lanes_congr hbytes
    rw [hl, hsrc]

/-- Settles O13: both requests get the response of what they agree on. -/
theorem ignoredPortsDoNotMatter : Obligations.IgnoredPortsDoNotMatter := by
  intro i c r r' o o' hw h
  have hagree : AgreeOnRead i.fields.2.1 r r' := h
  refine ⟨commandResponse ⟨c, r, o⟩ i, exec_of_wf i hw, ?_⟩
  rw [commandResponse_congr o o' hagree]
  exact exec_of_wf i hw

/-- A response does not read the outputs it replaces. -/
theorem commandResponse_out (c : Config) (r : Inputs c) (o o' : Outputs c) (i : Instr) :
    commandResponse ⟨c, r, o⟩ i = commandResponse ⟨c, r, o'⟩ i := rfl

theorem step_out (c : Config) (r : Inputs c) (o o' : Outputs c) : step ⟨c, r, o⟩ = step ⟨c, r, o'⟩ := by
  cases hd : decode r.cmd with
  | ok i =>
    rw [step_of_decode (s := ⟨c, r, o⟩) hd, step_of_decode (s := ⟨c, r, o'⟩) hd, exec_eq_respond, exec_eq_respond,
      commandResponse_out c r o o']
    rfl
  | error e =>
    rw [step_of_reject (s := ⟨c, r, o⟩) hd, step_of_reject (s := ⟨c, r, o'⟩) hd]
    rfl

theorem step_drive (s : State) (o : Outputs s.cfg) : step (s.drive o) = step s := step_out _ _ _ _

/-- Settles O12: a step does not read the outputs, and its next state has the same inputs. -/
theorem stepsForgetEarlierResults : Obligations.StepsForgetEarlierResults := by
  refine ⟨step_out, fun s t h => ?_⟩
  obtain ⟨o, rfl⟩ := operationsDriveOnlyTheOutputs.2 s t h
  rw [step_drive, h]

/-- Outside FROM_SLICE the response does not read the flavour (R77, R167, R187). -/
theorem commandResponse_flavour {i i' : Instr} (s : State) (h : i.fields.2 = i'.fields.2) (hi : i.isSlice = false) :
    commandResponse s i = commandResponse s i' := by
  rcases hf : i.fields with ⟨f, fam, o⟩
  rcases hf' : i'.fields with ⟨f', fam', o'⟩
  obtain ⟨rfl, rfl⟩ : fam = fam' ∧ o = o' := by simpa [hf, hf'] using h
  cases fam
  case fromSlice => simp [Instr.isSlice, hf] at hi
  all_goals simp only [commandResponse, hf, hf']

/-- Settles O15: equal responses are completed alike. -/
theorem flavourMattersOnlyForSlices : Obligations.FlavourMattersOnlyForSlices := by
  intro i i' s h hi
  rw [exec_eq_respond, exec_eq_respond, commandResponse_flavour s h hi]

/-! `native_big` (R72; log 9). Two blocks have different port types, so their responses are compared as numbers. -/

/-- Two blocks' outputs carry the same numbers and the same status. -/
def SameOutputs {c c' : Config} (o : Outputs c) (o' : Outputs c') : Prop :=
  o'.valOut.toNat = o.valOut.toNat ∧ o'.bytesOut.toNat = o.bytesOut.toNat ∧ o'.status = o.status

section Native

variable {c c' : Config}

theorem total_congr (hk : c'.k = c.k) (hn : c'.n = c.n) : c'.total = c.total := by
  rw [Config.total, Config.total, Config.bytes, Config.bytes, hk, hn]

theorem wf_congr (hn : c'.n = c.n) (ht : c'.total = c.total) (hl : c'.lmax = c.lmax) (h : c.wf = true) :
    c'.wf = true := by
  rw [Config.wf_iff] at h ⊢
  rwa [hn, ht, hl]

theorem fits_congr (hv : c'.valBits = c.valBits) (f : Flavour) (v : Int) : fits c' f v = fits c f v := by
  cases f <;> simp only [fits, hv]

theorem resolve_of_ne_ne {o : ByteOrder} (c c' : Config) (h : o ≠ .ne) : resolve c' o = resolve c o := by
  cases o
  case ne => exact absurd rfl h
  all_goals rfl

theorem sameOutputs_valueResult {x : Value c} {x' : Value c'} (h : x'.toNat = x.toNat) :
    SameOutputs (valueResult c x) (valueResult c' x') :=
  ⟨h, by simp, rfl⟩

theorem sameOutputs_bytesResult (ht : c'.total = c.total) (a : List Byte) :
    SameOutputs (bytesResult c a) (bytesResult c' a) :=
  ⟨by simp, by simp [packBytes, ht], rfl⟩

theorem sameOutputs_failure (st : Status) : SameOutputs (failure c st) (failure c' st) :=
  ⟨by simp, by simp, rfl⟩

/-- The closed forms read the parameters as widths only, unless the order is native. -/
theorem sameOutputs_closedCommand {i : Instr} {r : Inputs c} {r' : Inputs c'} (ho : i.fields.2.2 ≠ .ne)
    (hto : i.fields.2.1 ≠ .toOrder) (hfrom : i.fields.2.1 ≠ .fromOrder) (ht : c'.total = c.total)
    (hl : c'.lmax = c.lmax) (hval : r'.valIn.toNat = r.valIn.toNat) (hbytes : r'.bytesIn.toNat = r.bytesIn.toNat)
    (hlen : r'.lenIn.toNat = r.lenIn.toNat) : SameOutputs (closedCommand c r i) (closedCommand c' r' i) := by
  have hv : c'.valBits = c.valBits := by rw [c.valBits_eq, c'.valBits_eq, ht]
  rcases hf : i.fields with ⟨f, fam, o⟩
  rw [hf] at ho hto hfrom
  have hres : resolve c' o = resolve c o := resolve_of_ne_ne c c' ho
  cases fam <;> simp only [closedCommand, hf, hres, ht, hl, hval, hlen, lanes_eq_of_toNat_eq hbytes]
  case fromBytes =>
    exact sameOutputs_valueResult (by rw [BitVec.toNat_ofNat, BitVec.toNat_ofNat, hv])
  case toBytes => exact sameOutputs_bytesResult ht _
  case fromSlice =>
    split
    · simp only [closedDecode, fits_congr hv]
      generalize sliceNumber (resolve c o) f (lanes r.bytesIn r.lenIn.toNat) = v
      cases fits c f v
      · exact sameOutputs_failure .overflow
      · exact sameOutputs_valueResult (by rw [BitVec.toNat_ofInt, BitVec.toNat_ofInt, hv])
    · exact sameOutputs_failure .illegal
  case toOrder => exact absurd rfl hto
  case fromOrder => exact absurd rfl hfrom

end Native

/-- Settles O14: both blocks answer the closed form, which reads `NATIVE` only through NE and in the whole-value
families. -/
theorem nativeOrderMattersOnlyWhereItIsRead : Obligations.NativeOrderMattersOnlyWhereItIsRead := by
  intro i s s' ho hto hfrom hw hk hn hl hval hbytes hlen
  have ht := total_congr hk hn
  have hw' := wf_congr hn ht hl hw
  refine ⟨_, _, exec_of_wf i hw, exec_of_wf i hw', ?_⟩
  rw [commandResponse_eq_closedCommand (Config.wf_n hw), commandResponse_eq_closedCommand (Config.wf_n hw')]
  exact sameOutputs_closedCommand ho hto hfrom ht hl hval hbytes hlen

end Sys2Proof.Machine
end

section
/-! PROOFS. The command word at a step (30_encoding.md R71, R81; 10_state.md R21), parameters that make no block
(00_scope.md R10, R12), and the reset state (70_reset_and_hazards.md R231). -/

namespace Sys2Proof.Machine

/-- Settles O2: decode and encode are inverse, and a word that decodes has its command's fields in its bit fields. -/
theorem decodeAndEncodeAgree : Obligations.DecodeAndEncodeAgree := by
  refine fun i w => ⟨decode_eq_ok_iff, fun h => ?_⟩
  obtain ⟨f, o, hf, ho, hl⟩ := decode_ok h
  rw [fields_of_lookup hl]
  exact ⟨(bit_flavourOf w).symm, (bits_of_familyOf hf).symm, (bits_of_orderOf ho).symm⟩

/-- Settles O4: the equation of a step whose word decodes. -/
theorem stepRunsTheDecodedCommand : Obligations.StepRunsTheDecodedCommand := fun _ _ => step_of_decode

/-- All that the table word of a command can be. -/
theorem decodeTableWord_some {nbits w : Nat} {i : Instr} (h : decodeTableWord nbits w = some i) :
    w < 64 ∧ decode (BitVec.ofNat 6 w) = .ok i := by
  unfold decodeTableWord at h
  split at h
  · next hlt =>
    split at h
    · next hd =>
      cases h
      exact ⟨hlt, hd⟩
    · cases h
  · cases h

/-- Settles O5: the presented word is on `cmd`, it decodes, and so it is the command's own encoding. -/
theorem presentedWordIsRunNext : Obligations.PresentedWordIsRunNext := by
  intro s nbits w i h
  obtain ⟨-, hd⟩ := decodeTableWord_some h
  refine ⟨step_of_decode hd, ?_, rfl⟩
  rw [← eq_encode_of_decode hd]
  rfl

theorem wf_eq_false_iff (c : Config) : c.wf = false ↔ c.n = 0 ∨ c.lmax < c.total := by
  rw [← Bool.not_eq_true, c.wf_iff, not_and_or, Nat.not_le, Nat.not_le, Nat.lt_one_iff]

theorem exec_of_not_wf {s : State} (h : s.cfg.wf = false) (i : Instr) : exec i s = .refused .notAnInstance := by
  rw [exec_eq_respond, respond_of_not_wf h]

theorem step_of_not_wf {s : State} (h : s.cfg.wf = false) : step s = .refused .notAnInstance := by
  cases hd : decode s.inp.cmd with
  | ok i => rw [step_of_decode hd, exec_of_not_wf h]
  | error r => rw [step_of_reject hd, illegal, respond_of_not_wf h]

/-- Settles O8: every path of a step completes through the one operation that refuses. -/
theorem parametersThatMakeNoBlockAreRefused : Obligations.ParametersThatMakeNoBlockAreRefused := by
  intro s h
  have hw : s.cfg.wf = false := (wf_eq_false_iff s.cfg).2 h
  exact ⟨step_of_not_wf hw, exec_of_not_wf hw⟩

/-- The command word of zeros is `uint.from_be_bytes`, and its response to zeros is zero. -/
theorem step_reset : step State.reset = .next State.reset := rfl

/-- Settles O9: the reset state is its own next state, so it keeps the contract as every next state does. -/
theorem resetIsSettled : Obligations.ResetIsSettled := ⟨.of_step_next step_reset, step_reset⟩

end Sys2Proof.Machine
end

section
/-! PROOFS. The digit units (40_digit_units.md R101, R105, R108 to R110): laws of the two conversions, `bswap`, and the
sign logic. -/

namespace Sys2Proof.Machine

/-! The bytes of a digit (R101). -/

theorem natOf_replicate (e : Endian) (m : Nat) (b : Byte) :
    natOf e (List.replicate m b) = leNat (List.replicate m b) := by
  cases e
  · rw [natOf, ← leNat_reverse, List.reverse_replicate]
  · rfl

theorem natOf_singleton (e : Endian) (b : Byte) : natOf e [b] = b.toNat := by
  cases e <;> simp [natOf, beNat]

section Digit

variable (c : Config) (d : Digit c)

/-- `BYTES` bytes are a digit's exactly when their number is the digit. -/
theorem digitToBytes_eq_iff {b : List Byte} (e : Endian) (h : b.length = c.bytes) :
    digitToBytes c d e = b ↔ d.toNat = natOf e b := by
  rw [← natOf_digitToBytes c d e]
  exact ⟨congrArg _, natOf_inj e (by rw [length_digitToBytes, h])⟩

theorem digitToBytes_be_eq_reverse : digitToBytes c d .be = (digitToBytes c d .le).reverse := by
  rw [digitToBytes_be, digitToBytes_le]

theorem bytes_eq_one_of_w_eq_eight {c : Config} (h : c.w = 8) : c.bytes = 1 := by
  rw [c.w_eq] at h
  omega

theorem digitToBytes_of_w_eq_eight (h : c.w = 8) (e : Endian) : digitToBytes c d e = [BitVec.ofNat 8 d.toNat] := by
  have hlt : d.toNat < 2 ^ 8 := h ▸ d.isLt
  have hlen : [BitVec.ofNat 8 d.toNat].length = c.bytes := (bytes_eq_one_of_w_eq_eight h).symm
  rw [digitToBytes_eq_iff c d e hlen, natOf_singleton, BitVec.toNat_ofNat,
    Nat.mod_eq_of_lt hlt]

end Digit

theorem toNat_signBits (c : Config) (neg : Bool) : (signBits c neg).toNat = if neg then 2 ^ c.w - 1 else 0 := by
  cases neg
  · exact toNat_zeroDigit c
  · exact toNat_allOnesDigit c

/-- `sign_bits` is `BYTES` copies of `pad` in every order (R110). -/
theorem digitToBytes_signBits (c : Config) (neg : Bool) (e : Endian) :
    digitToBytes c (signBits c neg) e = List.replicate c.bytes (padByte neg) := by
  rw [digitToBytes_eq_iff c _ e List.length_replicate, natOf_replicate, toNat_signBits, leNat_replicate_padByte,
    c.two_pow_w]

/-- Settles O19: a digit's bytes are the only ones with its number, and zero and all-ones are the two `sign_bits`. -/
theorem digitToBytesLaws : Obligations.DigitToBytesLaws := by
  refine fun c d => ⟨?_, natOf_digitToBytes c d .be, natOf_digitToBytes c d .le,
    fun h o => digitToBytes_of_w_eq_eight c d h _, fun o => digitToBytes_signBits c false _,
    fun o => digitToBytes_signBits c true _⟩
  have hrev : digitToBytes c d .le = (digitToBytes c d .be).reverse := by
    rw [digitToBytes_be_eq_reverse, List.reverse_reverse]
  exact hrev

/-! `bswap` (R105). -/

section Bswap

variable (c : Config) (d : Digit c)

theorem byteAt_bswap {k : Nat} (h : k < c.bytes) : byteAt (bswap c d) k = byteAt d (c.bytes - 1 - k) := by
  have hlen : 8 * (digitToBytes c d .be).length ≤ c.w := by rw [length_digitToBytes, c.w_eq]
  rw [← getD_digitToBytes_be c d h]
  exact byteAt_ofNat_leNat c.w _ hlen k

/-- `bswap` exchanges the two byte lists of a digit. -/
theorem digitToBytes_bswap_le : digitToBytes c (bswap c d) .le = digitToBytes c d .be := by
  rw [bswap_eq, digitToBytes_bytesToDigit c _ .le (length_digitToBytes c d .be)]

theorem bswap_bswap : bswap c (bswap c d) = d := by
  rw [bswap_eq, digitToBytes_be_eq_reverse, digitToBytes_bswap_le, digitToBytes_be_eq_reverse, List.reverse_reverse,
    bytesToDigit_digitToBytes]

theorem bswap_of_w_eq_eight (h : c.w = 8) : bswap c d = d := by
  rw [bswap_eq, digitToBytes_of_w_eq_eight c d h, ← digitToBytes_of_w_eq_eight c d h .le, bytesToDigit_digitToBytes]

end Bswap

/-- Settles O21: the conversions lose nothing in one order, and crossing the orders is `bswap`. -/
theorem digitConversionsAreInverse : Obligations.DigitConversionsAreInverse :=
  fun c d => ⟨fun _ => bytesToDigit_digitToBytes c d _, fun _ b hb => digitToBytes_bytesToDigit c b _ hb,
    (bswap_eq c d).symm, fun _ hk => byteAt_bswap c d hk, bswap_bswap c d, bswap_of_w_eq_eight c d⟩

/-! The sign logic (R54, R108 to R110). -/

theorem getElem?_eq_some_getD {src : List Byte} {j : Nat} (h : j < src.length) : src[j]? = some (src.getD j 0) := by
  rw [List.getElem?_eq_getElem h, List.getD_eq_getElem _ _ h]

/-- Settles O22: the most-significant byte stands at the slice's first or last position, its top bit is the sign, and
`sign_bits` has the bytes `pad`. -/
theorem signExtensionLogic : Obligations.SignExtensionLogic := by
  refine ⟨fun src hsrc => ?msb, fun b => ⟨isNegative_signed_iff b, rfl, rfl⟩, by decide, by decide, by decide,
    rfl, rfl, rfl, fun c => ⟨toNat_signBits c true, toNat_signBits c false, fun neg => ?pads⟩⟩
  case msb =>
    have hpos := List.length_pos_iff.2 hsrc
    exact ⟨getElem?_eq_some_getD hpos, getElem?_eq_some_getD (Nat.sub_lt hpos Nat.one_pos)⟩
  case pads =>
    rw [← digitToBytes_signBits c neg .be]
    exact (natOf_digitToBytes c _ .be).symm

end Sys2Proof.Machine
end

section
/-! PROOFS. Relations between the arrays of a value (42_exact_array.md R162, R166, R168; 20_memory.md R43), the swap in
digits and bytes (43_whole_value.md R180), and the whole-value family against the array family (R186, R188). -/

namespace Sys2Proof.Machine

/-- Settles O42: NE resolves to the native fixed order, and the other order's array is its reversal. -/
theorem toNeBytesResult : Obligations.ToNeBytesResult := by
  refine ⟨decode_encode .uintToNeBytes, decode_encode .intToNeBytes, fun i s hi hw => ?_⟩
  have hrev := toBytes_be_eq_reverse s.cfg s.inp.valIn
  have hrev' : toBytes s.cfg s.inp.valIn .le = (toBytes s.cfg s.inp.valIn .be).reverse := by
    rw [hrev, List.reverse_reverse]
  refine ⟨toBytes s.cfg s.inp.valIn s.cfg.native, ?completes, fun h => ?be, fun h => ?le, fun hpal => ?palindrome⟩
  case completes => rcases hi with rfl | rfl <;> exact toBytesCommand_of_wf hw .ne
  case be => exact ⟨by rw [h], by rw [h, hrev]⟩
  case le => exact ⟨by rw [h], by rw [h, hrev']⟩
  case palindrome =>
    cases s.cfg.native
    · rfl
    · exact hrev'.trans hpal.symm

/-- Settles O46: in each order the array and the value determine each other. -/
theorem arrayRoundTrip : Obligations.ArrayRoundTrip :=
  fun c _ => ⟨fun x => fromBytes_toBytes c x _, fun _ ha => toBytes_fromBytes c _ ha⟩

/-- One byte reads the same in every order. -/
theorem natOf_eq_of_length_eq_one (e e' : Endian) {a : List Byte} (h : a.length = 1) : natOf e a = natOf e' a := by
  obtain ⟨b, rfl⟩ := List.length_eq_one_iff.1 h
  rw [natOf_singleton, natOf_singleton]

/-- Settles O47: the two orders are mirror images, so crossing them is the swap, and one byte has one order. -/
theorem arrayOrdersAreReversals : Obligations.ArrayOrdersAreReversals := by
  refine fun c x => ⟨?_, fun a ha => ?_, (swap_eq_fromBytes c x).symm, fun h1 e e' => ⟨?_, fun a ha => ?_⟩⟩
  · rw [toBytes_be_eq_reverse, List.reverse_reverse]
  · rw [fromBytes_be_reverse c _ (by rwa [List.length_reverse]), List.reverse_reverse]
  · have hlen := length_toBytes c x e'
    rw [toBytes_eq_iff c x e hlen, natOf_eq_of_length_eq_one e e' (hlen.trans h1), natOf_toBytes]
  · have hlen : a.length = c.total := ha.trans h1.symm
    rw [fromBytes_eq c a e hlen, fromBytes_eq c a e' hlen, natOf_eq_of_length_eq_one e e' ha]

section Layout

variable (c : Config) (x : Value c)

/-- Byte `j` of a value is byte `j mod BYTES` of digit `j div BYTES`. -/
theorem byteAt_digit_div_mod (j : Nat) : byteAt (digit c x (j / c.bytes)) (j % c.bytes) = byteAt x j := by
  rw [byteAt_digit c x _ _ (Nat.mod_lt _ c.bytes_pos), Nat.div_add_mod']

/-- Position `j` from the front is in digit `j div BYTES` from the front, at byte `j mod BYTES` from its front. -/
theorem byteAt_digit_from_top {j : Nat} (h : j < c.total) :
    byteAt (digit c x (c.n - 1 - j / c.bytes)) (c.bytes - 1 - j % c.bytes) = byteAt x (c.total - 1 - j) := by
  have hmod := Nat.mod_lt j c.bytes_pos
  have hdiv : j / c.bytes < c.n := Nat.div_lt_of_lt_mul (by rwa [Nat.mul_comm])
  have hj := Nat.div_add_mod' j c.bytes
  have htop := digitPosition_be c (j / c.bytes)
  have hle := digitPosition_le_add_bytes_le c hdiv
  rw [byteAt_digit c x _ _ (by omega)]
  congr 1
  simp only [digitPosition] at htop hle
  omega

/-- The big-endian array is the digits' byte lists joined from the most significant digit. -/
theorem flatMap_digitToBytes_be :
    (List.range c.n).reverse.flatMap (fun i => digitToBytes c (digit c x i) .be) = toBytes c x .be := by
  simp only [digitToBytes_be_eq_reverse]
  rw [toBytes_be_eq_reverse, toBytes_le, Config.total, ← flatMap_digitToBytes_le, List.reverse_flatMap]
  rfl

end Layout

/-- Settles O48: a byte of the value is a byte of a digit, from either end, and the arrays are the digits' bytes
joined. -/
theorem arrayLayoutInDigits : Obligations.ArrayLayoutInDigits := by
  refine fun c x => ⟨fun j hj => ⟨?_, ?_⟩, (flatMap_digitToBytes_be c x).symm, ?_⟩
  · rw [getD_toBytes_be c x hj, byteAt_digit_from_top c x hj]
  · rw [getD_toBytes_le c x hj, byteAt_digit_div_mod]
  · rw [flatMap_digitToBytes_le, toBytes_le]
    rfl

/-- Settles O49: the other block reads the same number from the array, which has its own exact length. -/
theorem fixedOrderArraysArePortable : Obligations.FixedOrderArraysArePortable := by
  intro c c' x e ht
  have hlen : (toBytes c x e).length = c'.total := by rw [length_toBytes, ht]
  exact ⟨by rw [toNat_fromBytes c' _ e hlen, natOf_toBytes], toBytes_fromBytes c' e hlen⟩

/-! The swap, by digits and by bytes. -/

/-- Each digit of a list of digits is its place in their number. -/
theorem toNat_of_getElem?_digits (c : Config) {ds : List (Digit c)} {i : Nat} {d : Digit c} (h : ds[i]? = some d) :
    d.toNat = digitsNat c ds / (2 ^ c.w) ^ i % 2 ^ c.w := by
  induction ds generalizing i with
  | nil => simp at h
  | cons x xs ih =>
    have hx := x.isLt
    cases i with
    | zero =>
      obtain rfl : x = d := by simpa using h
      rw [digitsNat_cons, Nat.pow_zero, Nat.div_one, Nat.add_mul_mod_self_left, Nat.mod_eq_of_lt hx]
    | succ i =>
      rw [ih (by simpa using h), digitsNat_cons, Nat.pow_succ', ← Nat.div_div_eq_div_mul,
        Nat.add_mul_div_left _ _ (Nat.two_pow_pos _), Nat.div_eq_of_lt hx, Nat.zero_add]

/-- A value has the digits it is assembled from (R136). -/
theorem digit_assemble (c : Config) {ds : List (Digit c)} (hlen : ds.length = c.n) {i : Nat} {d : Digit c}
    (h : ds[i]? = some d) : digit c (assemble c ds) i = d := by
  apply BitVec.eq_of_toNat_eq
  rw [toNat_digit, toNat_assemble c ds hlen, toNat_of_getElem?_digits c h]

section Swap

variable (c : Config) (x : Value c)

theorem digit_swap {i : Nat} (h : i < c.n) : digit c (swap c x) i = bswap c (digit c x (c.n - 1 - i)) :=
  digit_assemble c (by simp) (by simp [h])

theorem byteAt_swap {m : Nat} (h : m < c.total) : byteAt (swap c x) m = byteAt x (c.total - 1 - m) := by
  rw [← getD_toBytes_le c _ h, toBytes_swap c x (e := .be) (by decide), getD_toBytes_be c x h]

end Swap

/-- Settles O50: the swap is defined on digits, exchanges the two arrays, and so reverses the bytes. -/
theorem swapReversesTheBytes : Obligations.SwapReversesTheBytes :=
  ⟨fun c x => ⟨fun _ hi => digit_swap c x hi, fun _ hm => byteAt_swap c x hm, swap_eq_fromBytes c x,
    (fromBytes_toBytes_of_ne c x (by decide)).symm, swap_swap c x, swap_eq_self_of_total_eq_one c x⟩,
    swap_0x12345678⟩

/-! The whole-value family (R186, R188). -/

/-- There are two fixed orders. -/
theorem eq_or_eq_of_ne {e e' : Endian} (h : e ≠ e') (n : Endian) : n = e ∨ n = e' := by
  cases e <;> cases e'
  case be.be | le.le => exact absurd rfl h
  case be.le => cases n; exacts [.inl rfl, .inr rfl]
  case le.be => cases n; exacts [.inr rfl, .inl rfl]

/-- Of the two orders one is native: the other's operation is the swap, and so is the two composed. -/
theorem toOrder_toOrder_of_ne (c : Config) (x : Value c) {e e' : Endian} (h : e ≠ e') :
    toOrder c e (toOrder c e' x) = swap c x := by
  rcases eq_or_eq_of_ne h c.native with he | he
  · rw [toOrder_of_native_eq he, toOrder_of_native_ne (by rwa [he])]
  · rw [toOrder_of_native_ne (by rw [he]; exact h.symm), toOrder_of_native_eq he]

/-- Settles O54: the native order is the identity, the other the swap. -/
theorem oneOrderIsTheIdentity : Obligations.OneOrderIsTheIdentity := by
  refine fun c x => ⟨fun h => ?_, fun h => ?_, toOrder_toOrder_of_ne c x (by decide),
    toOrder_toOrder_of_ne c x (by decide)⟩ <;> simp only [fromOrder_eq_toOrder]
  · have hle : toOrder c .le x = swap c x := toOrder_of_native_ne (by rw [h]; decide)
    exact ⟨toOrder_of_native_eq h, toOrder_of_native_eq h, hle, hle⟩
  · have hbe : toOrder c .be x = swap c x := toOrder_of_native_ne (by rw [h]; decide)
    exact ⟨toOrder_of_native_eq h, toOrder_of_native_eq h, hbe, hbe⟩

/-- The native array of the reordered value is the fixed-order array. -/
theorem toBytes_native_toOrder (c : Config) (x : Value c) (e : Endian) :
    toBytes c (toOrder c e x) c.native = toBytes c x e := by
  by_cases h : c.native = e
  · rw [toOrder_of_native_eq h, h]
  · rw [toOrder_of_native_ne h, toBytes_swap c x (Ne.symm h)]

/-- Reordering the value of a native array reads the array in the fixed order: both write back the same bytes. -/
theorem toOrder_fromBytes_native (c : Config) {a : List Byte} (ha : a.length = c.total) (e : Endian) :
    toOrder c e (fromBytes c a c.native) = fromBytes c a e := by
  rw [← fromBytes_toBytes c (toOrder c e _) e]
  by_cases h : c.native = e
  · rw [fromBytes_toBytes, toOrder_of_native_eq h, h]
  · rw [toOrder_of_native_ne h, toBytes_swap c _ h, toBytes_fromBytes c _ ha]

/-- Settles O55: the native order of the array and of the reordering cancel. -/
theorem wholeValueAndArrayFamiliesAgree : Obligations.WholeValueAndArrayFamiliesAgree :=
  fun c => ⟨fun x => ⟨toBytes_native_toOrder c x .be, toBytes_native_toOrder c x .le⟩,
    fun _ ha => ⟨toOrder_fromBytes_native c ha .be, toOrder_fromBytes_native c ha .le⟩⟩

end Sys2Proof.Machine
end

section
/-! PROOFS. The chunks of a slice by position (20_memory.md R47 to R51) and the slice decode as a number: the closed form,
sign extension, capacity, and the length cases (40_digit_units.md R113, R117; 41_slice_decode.md R137, R140). -/

namespace Sys2Proof.Machine

/-! Chunks by position. -/

/-- Byte number `p` of a slice, counted from its least-significant end. -/
def sliceByte (src : List Byte) (e : Endian) (p : Nat) : Byte :=
  match e with
  | .be => src.getD (src.length - 1 - p) 0
  | .le => src.getD p 0

theorem sliceByte_be {src : List Byte} {p : Nat} (h : p < src.length) :
    sliceByte src .be p = sliceByte src.reverse .le p :=
  (congrFun (List.getD_reverse p h) 0).symm

section Chunks

variable (c : Config) (src : List Byte) (e : Endian) (pad : Byte)

theorem padLength_lt (len : Nat) : padLength c len < c.bytes := by
  have hpos := c.bytes_pos
  unfold padLength
  split <;> omega

/-- The number of chunks is the length over `BYTES`, rounded up (R51). -/
theorem length_chunkDigits_eq_ceil :
    (chunkDigits c src e pad).length = (src.length + (c.bytes - 1)) / c.bytes := by
  have hmul := length_chunkDigits_mul c src e pad
  have hpad := padLength_lt c src.length
  refine (Nat.div_eq_of_lt_le ?_ ?_).symm
  · omega
  · rw [Nat.succ_mul]
    omega

/-- The chunks fit the value exactly when the bytes do. -/
theorem length_chunkDigits_le_iff : (chunkDigits c src e pad).length ≤ c.n ↔ src.length ≤ c.total := by
  rw [length_chunkDigits_eq_ceil, ← Nat.lt_succ_iff, Nat.div_lt_iff_lt_mul c.bytes_pos, Nat.succ_mul, ← Config.total]
  have hpos := c.bytes_pos
  omega

end Chunks

/-- The bytes of a digit list are those of any byte list with the same number. -/
theorem byteAt_of_getElem?_digits {c : Config} {ds : List (Digit c)} {l : List Byte} (hl : digitsNat c ds = leNat l)
    {i k : Nat} {d : Digit c} (h : ds[i]? = some d) (hk : k < c.bytes) : byteAt d k = l.getD (i * c.bytes + k) 0 := by
  apply BitVec.eq_of_toNat_eq
  have hpow : 256 ^ c.bytes = 256 ^ k * 256 ^ (c.bytes - k) := by rw [← Nat.pow_add, Nat.add_sub_cancel' hk.le]
  have hdvd : (256 : Nat) ∣ 256 ^ (c.bytes - k) := dvd_pow_self _ (by omega)
  rw [byteAt_toNat, toNat_of_getElem?_digits c h, hl, ← leNat_div_mod, c.two_pow_w, ← Nat.pow_mul, Nat.pow_add,
    ← Nat.div_div_eq_div_mul, Nat.mul_comm i, hpow, Nat.mod_mul_right_div_self, Nat.mod_mod_of_dvd _ hdvd]

section Chunks

variable (c : Config) (src : List Byte) (pad : Byte) {i k : Nat} {d : Digit c}

theorem byteAt_chunkDigits_le (h : (chunkDigits c src .le pad)[i]? = some d) (hk : k < c.bytes) :
    byteAt d k = if i * c.bytes + k < src.length then sliceByte src .le (i * c.bytes + k) else pad := by
  have hmul := length_chunkDigits_mul c src .le pad
  have hi : (i + 1) * c.bytes ≤ (chunkDigits c src .le pad).length * c.bytes :=
    Nat.mul_le_mul_right _ (List.getElem?_eq_some_iff.1 h).1
  rw [Nat.succ_mul, hmul] at hi
  rw [byteAt_of_getElem?_digits (digitsNat_chunkDigits_le c src pad) h hk]
  split
  · next hlt => exact List.getD_append _ _ _ _ hlt
  · next hge =>
    rw [List.getD_append_right _ _ _ _ (Nat.not_lt.1 hge), List.getD_replicate]
    omega

/-- Byte `k` of chunk `i` is the slice's byte number `i·BYTES+k`, or the pad byte beyond the slice. -/
theorem byteAt_chunkDigits (e : Endian) (h : (chunkDigits c src e pad)[i]? = some d) (hk : k < c.bytes) :
    byteAt d k = if i * c.bytes + k < src.length then sliceByte src e (i * c.bytes + k) else pad := by
  cases e
  · rw [chunkDigits_be] at h
    rw [byteAt_chunkDigits_le c _ pad h hk, List.length_reverse]
    split
    · next hlt => exact (sliceByte_be hlt).symm
    · rfl
  · exact byteAt_chunkDigits_le c src pad h hk

end Chunks

/-- Settles O26: the chunks are the slice with its pad bytes above, read as one number and cut into digits. -/
theorem chunksCutTheSliceFromItsLeastSignificantEnd :
    Obligations.ChunksCutTheSliceFromItsLeastSignificantEnd := by
  refine fun c src e pad => ⟨length_chunkDigits_eq_ceil c src e pad, fun i d k h hk => ?_⟩
  rw [byteAt_chunkDigits c src pad e h hk]
  cases e <;> rfl

/-! The decode is the number of the slice, if it fits (R140). -/

/-- Settles O27: the closed form of the decode, with the tests of `fits` written out. -/
theorem sliceDecodeIsTheNumberIfItFits : Obligations.SliceDecodeIsTheNumberIfItFits := by
  refine fun c src e hn => ⟨?signed, ?unsigned⟩
  case signed =>
    rw [decodeSlice_eq_closedDecode c hn]
    exact if_congr decide_eq_true_iff rfl rfl
  case unsigned =>
    have hfit : fits c .unsigned (sliceNumber e .unsigned src) = true ↔ natOf e src ≤ 2 ^ c.valBits - 1 :=
      (fits_unsigned_natCast_iff c _).trans (Nat.le_sub_one_iff_lt (Nat.two_pow_pos _)).symm
    rw [decodeSlice_eq_closedDecode c hn, closedDecode, if_congr hfit rfl rfl, sliceNumber, BitVec.ofInt_natCast]

/-- Settles O28: as many chunks as digits is as many bytes, and then the decode succeeds and reads back as the number. -/
theorem signExtensionKeepsTheNumber : Obligations.SignExtensionKeepsTheNumber := by
  intro c src e f hn hsrc hcap
  obtain ⟨x, hx⟩ := exists_decodeSlice_of_length_le hn ((length_chunkDigits_le_iff c src e _).1 hcap) e f
  refine ⟨x, hx, ?_, ?_⟩
  · rintro rfl
    rw [toInt_of_decodeSlice hn hx, sliceNumber, if_neg (by simpa using hsrc)]
  · rintro rfl
    exact toNat_of_decodeSlice hn hx

/-! The chunks a decode accepts, in its own sign (R114 to R117). -/

/-- The sign the decode gives the slice. -/
def sliceSign (src : List Byte) (e : Endian) (f : Flavour) : Bool := isNegative f (msByte src e)

/-- The chunks the decode examines. -/
def examinedChunks (c : Config) (src : List Byte) (e : Endian) (f : Flavour) : List (Digit c) :=
  chunkDigits c src e (padByte (sliceSign src e f))

section Decode

variable {c : Config} {src : List Byte} {e : Endian} {f : Flavour}

theorem exists_decodeSlice_iff (h : src.length ≠ 0) :
    (∃ x, decodeSlice c src e f = some x) ↔
      ∀ j, (hj : j < (examinedChunks c src e f).length) →
        verdict c f j (examinedChunks c src e f)[j] (sliceSign src e f) ≠ .fail := by
  rw [← Option.isSome_iff_exists, Option.isSome_iff_ne_none, ne_eq, decodeSlice_eq_none_iff_fail c h, not_not]
  rfl

/-- A decode succeeds exactly when no chunk fails (R116). -/
theorem exists_decodeSlice_iff_noFail (h : src.length ≠ 0) :
    (∃ x, decodeSlice c src e f = some x) ↔
      ∀ i d, (examinedChunks c src e f)[i]? = some d → verdict c f i d (sliceSign src e f) ≠ .fail := by
  rw [exists_decodeSlice_iff h]
  simp only [List.getElem?_eq_some_iff]
  exact ⟨fun hall i d ⟨hi, hd⟩ => hd ▸ hall i hi, fun hall i hi => hall i _ ⟨hi, rfl⟩⟩

/-- A decode succeeds exactly when the top chunk, if there is one, has the sign (signed only) and the filler is
`sign_bits` (R114, R115). -/
theorem exists_decodeSlice_iff_top_filler (hn : 1 ≤ c.n) (h : src.length ≠ 0) :
    (∃ x, decodeSlice c src e f = some x) ↔
      (f = .signed → ∀ d, (examinedChunks c src e f)[c.n - 1]? = some d → digitSign c d = sliceSign src e f) ∧
        ∀ d ∈ (examinedChunks c src e f).drop c.n, d = signBits c (sliceSign src e f) := by
  rw [exists_decodeSlice_iff h, noFail_iff c hn f (sliceSign src e f) fun hf => hf ▸ rfl]
  refine and_congr_left' (imp_congr_right fun _ => ?_)
  simp only [List.getElem?_eq_some_iff]
  exact ⟨fun htop d ⟨hi, hd⟩ => hd ▸ htop hi, fun htop hi => htop _ ⟨hi, rfl⟩⟩

/-- A value that a decode answers is assembled from the kept digits (R136). -/
theorem eq_assemble_of_decodeSlice (h : src.length ≠ 0) {x : Value c} (hx : decodeSlice c src e f = some x) :
    x = assemble c (keptDigits c (sliceSign src e f) (examinedChunks c src e f)) := by
  rw [decodeSlice_of_ne c src e f h, Option.ite_none_right_eq_some] at hx
  exact (Option.some.inj hx.2).symm

end Decode

/-- Settles O29: chunks fit when bytes do, a slice within capacity decodes, and a slice that decodes has no failing
chunk. -/
theorem noFailureWithinCapacity : Obligations.NoFailureWithinCapacity := by
  intro c src e f hn neg chunks
  have hfits : chunks.length ≤ c.n ↔ src.length ≤ c.total := length_chunkDigits_le_iff c src e _
  refine ⟨hfits, fun hsrc hcap => ?_, fun hcap => exists_decodeSlice_of_length_le hn hcap e f,
    total_lt_length_of_decodeSlice_eq_none hn⟩
  have hlen : src.length ≠ 0 := by simpa using hsrc
  have hdec := exists_decodeSlice_of_length_le hn hcap e f
  refine ⟨fun d hf hd => ⟨?_, ((exists_decodeSlice_iff_top_filler hn hlen).1 hdec).1 hf d hd⟩,
    (exists_decodeSlice_iff_noFail hlen).1 hdec⟩
  have hi := (List.getElem?_eq_some_iff.1 hd).1
  have := hfits.2 hcap
  omega

/-! The length cases (R137). -/

section Digits

variable (c : Config) (neg : Bool) {ds : List (Digit c)}

theorem getElem?_keptDigits_of_chunk (hle : ds.length ≤ c.n) {i : Nat} {d : Digit c} (h : ds[i]? = some d) :
    (keptDigits c neg ds)[i]? = some d := by
  have hi := (List.getElem?_eq_some_iff.1 h).1
  rw [keptDigits, List.take_of_length_le hle, List.getElem?_append_left hi, h]

theorem getElem?_keptDigits_above (hle : ds.length ≤ c.n) {i : Nat} (hi : ds.length ≤ i) (hin : i < c.n) :
    (keptDigits c neg ds)[i]? = some (signBits c neg) := by
  rw [keptDigits, List.take_of_length_le hle, List.getElem?_append_right hi, List.getElem?_replicate,
    if_pos (by omega)]

/-- A digit is `sign_bits` exactly when each of its bytes is `pad` (R110). -/
theorem eq_signBits_iff (d : Digit c) : d = signBits c neg ↔ ∀ k, k < c.bytes → byteAt d k = padByte neg := by
  have hlist : digitToBytes c d .le = List.replicate c.bytes (padByte neg) ↔ d = signBits c neg := by
    rw [← digitToBytes_signBits c neg .le]
    exact ⟨fun h => by rw [← bytesToDigit_digitToBytes c d .le, h, bytesToDigit_digitToBytes], fun h => by rw [h]⟩
  rw [← hlist, digitToBytes_le, List.eq_replicate_iff]
  simp [lanes]

end Digits

section Excess

variable (c : Config) (src : List Byte) (e : Endian) (neg : Bool)

/-- The filler chunks are `sign_bits` exactly when every byte beyond the value is `pad`: the chunks tile the slice. -/
theorem filler_eq_signBits_iff_excess :
    (∀ d ∈ (chunkDigits c src e (padByte neg)).drop c.n, d = signBits c neg) ↔
      ∀ p, c.total ≤ p → p < src.length → sliceByte src e p = padByte neg := by
  have hpos := c.bytes_pos
  have hmul := length_chunkDigits_mul c src e (padByte neg)
  constructor
  · intro hfill p hp hlt
    have hdm := Nat.div_add_mod' p c.bytes
    have hk := Nat.mod_lt p hpos
    have hn : c.n ≤ p / c.bytes := (Nat.le_div_iff_mul_le hpos).2 hp
    have hi : p / c.bytes < (chunkDigits c src e (padByte neg)).length :=
      Nat.div_lt_of_lt_mul (by rw [Nat.mul_comm]; omega)
    have hget := List.getElem?_eq_getElem hi
    have hd := hfill _ (List.mem_iff_getElem?.2 ⟨p / c.bytes - c.n, by
      rw [List.getElem?_drop, Nat.add_sub_cancel' hn, hget]⟩)
    have hbyte := byteAt_chunkDigits c src (padByte neg) e hget hk
    rw [hdm, if_pos hlt] at hbyte
    rw [← hbyte]
    exact (eq_signBits_iff c neg _).1 hd _ hk
  · intro hexc d hd
    obtain ⟨j, hj⟩ := List.mem_iff_getElem?.1 hd
    rw [List.getElem?_drop] at hj
    refine (eq_signBits_iff c neg d).2 fun k hk => ?_
    rw [byteAt_chunkDigits c src (padByte neg) e hj hk]
    split
    · next hlt =>
      have hle : c.total ≤ (c.n + j) * c.bytes := Nat.mul_le_mul_right _ (Nat.le_add_right _ _)
      exact hexc _ (hle.trans (Nat.le_add_right _ _)) hlt
    · rfl

/-- The bytes beyond the value, by the position they have in the slice (R137). -/
theorem excess_iff_position (b : Byte) :
    (∀ p, c.total ≤ p → p < src.length → sliceByte src e p = b) ↔
      ∀ j, j < src.length - c.total → src.getD (match e with
        | .be => j
        | .le => c.total + j) 0 = b := by
  cases e
  case le =>
    constructor
    · intro h j hj
      exact h (c.total + j) (Nat.le_add_right _ _) (by omega)
    · intro h p hp hlt
      have := h (p - c.total) (by omega)
      rwa [Nat.add_sub_cancel' hp] at this
  case be =>
    constructor
    · intro h j hj
      have := h (src.length - 1 - j) (by omega) (by omega)
      rwa [sliceByte, show src.length - 1 - (src.length - 1 - j) = j by omega] at this
    · intro h p hp hlt
      exact h (src.length - 1 - p) (by omega)

end Excess

/-- Settles O31: within capacity the kept digits are the chunks with `sign_bits` above them; beyond it the decode
succeeds when the filler is `sign_bits`, which is said byte by byte, and the top chunk has the sign. -/
theorem fourLengthCases : Obligations.FourLengthCases := by
  intro c src e f hn neg chunks
  refine ⟨fun h0 => ?empty, fun hpos hlt => ?short, fun hex => ?exact, fun hlong => ?long⟩
  case empty =>
    rw [List.eq_nil_of_length_eq_zero h0]
    exact decodeSlice_nil c e f
  case short =>
    have hle : chunks.length ≤ c.n := (length_chunkDigits_le_iff c src e _).2 hlt.le
    obtain ⟨x, hx⟩ := exists_decodeSlice_of_length_le hn hlt.le e f
    have hkept := length_keptDigits c neg chunks
    refine ⟨x, hx, ?_⟩
    rw [eq_assemble_of_decodeSlice hpos.ne' hx]
    exact ⟨fun i d hd => digit_assemble c hkept (getElem?_keptDigits_of_chunk c neg hle hd),
      fun i hi hin => digit_assemble c hkept (getElem?_keptDigits_above c neg hle hi hin)⟩
  case exact =>
    exact ⟨fromBytes c src e, exactSliceDecodesAsTheArray c src e f hn hex, toNat_fromBytes c src e hex⟩
  case long =>
    have htop : c.n - 1 < chunks.length := by
      have := mt (length_chunkDigits_le_iff c src e (padByte neg)).1 (Nat.not_le.2 hlong)
      exact lt_of_le_of_lt (Nat.sub_le _ _) (Nat.lt_of_not_le this)
    have hget : chunks[c.n - 1]? = some chunks[c.n - 1] := List.getElem?_eq_getElem htop
    refine (exists_decodeSlice_iff_top_filler hn (by omega)).trans (and_comm.trans (and_congr ?_ ?_))
    · exact (filler_eq_signBits_iff_excess c src e neg).trans (excess_iff_position c src e _)
    · refine imp_congr_right fun _ => ⟨fun h => ⟨_, hget, h _ hget⟩, ?_⟩
      rintro ⟨d, hd, hs⟩ d' hd'
      rwa [← Option.some.inj (hd.symm.trans hd')]

end Sys2Proof.Machine
end

section
/-! PROOFS. The number of a slice from its bytes and its sign, and what follows from it: redundant sign bytes (R141) and
the two flavours on the same bytes (41_slice_decode.md R144). -/

namespace Sys2Proof.Machine

/-- Little-endian, with chunks of one byte: nothing is padded. -/
theorem sliceNumber_le_eq (f : Flavour) {src : List Byte} (h : src.length ≠ 0) :
    sliceNumber .le f src
      = (leNat src : Int) - if isNegative f (msByte src .le) then ((256 ^ src.length : Nat) : Int) else 0 := by
  have hw : (2 : Nat) ^ (Config.mk 0 1 .le 1).w = 256 := rfl
  have hpad : padLength (Config.mk 0 1 .le 1) src.length = 0 :=
    Nat.lt_one_iff.1 (padLength_lt (Config.mk 0 1 .le 1) src.length)
  have hlen := length_chunkDigits_mul (Config.mk 0 1 .le 1) src .le (padByte (isNegative f (msByte src .le)))
  rw [hpad, show (Config.mk 0 1 .le 1).bytes = 1 from rfl, Nat.mul_one, Nat.add_zero] at hlen
  rw [sliceNumber_eq_chunks (Config.mk 0 1 .le 1) f src h, digitsNat_chunkDigits_le, hpad, List.replicate_zero,
    List.append_nil, hw, hlen]

/-- The number of a slice is the number of its bytes less the weight of its sign. -/
theorem sliceNumber_eq (e : Endian) (f : Flavour) {src : List Byte} (h : src.length ≠ 0) :
    sliceNumber e f src
      = (natOf e src : Int) - if isNegative f (msByte src e) then ((256 ^ src.length : Nat) : Int) else 0 := by
  cases e
  · rw [sliceNumber_be, sliceNumber_le_eq f (by rwa [List.length_reverse]), msByte_be src h, leNat_reverse,
      List.length_reverse]
    rfl
  · exact sliceNumber_le_eq f h

/-! Redundant sign bytes (R141). -/

/-- The pad byte of a sign has the sign. -/
theorem isNegative_padByte (f : Flavour) (b : Byte) : isNegative f (padByte (isNegative f b)) = isNegative f b := by
  cases f
  · rfl
  · cases isNegative .signed b <;> rfl

theorem msByte_le_append_replicate (src : List Byte) (m : Nat) (b : Byte) :
    msByte (src ++ List.replicate (m + 1) b) .le = b := by
  have hlen : (src ++ List.replicate (m + 1) b).length - 1 = src.length + m := by simp
  rw [msByte, hlen, List.getD_append_right _ _ _ _ (Nat.le_add_right _ _), List.getD_replicate]
  omega

/-- The pad bytes add to the number what their weight takes from the sign. -/
theorem sliceNumber_le_append_pad (f : Flavour) {src : List Byte} (h : src.length ≠ 0) (m : Nat) :
    sliceNumber .le f (src ++ List.replicate m (padByte (isNegative f (msByte src .le)))) = sliceNumber .le f src := by
  cases m with
  | zero => rw [List.replicate_zero, List.append_nil]
  | succ m =>
    obtain ⟨q, hq⟩ : ∃ q, 256 ^ (m + 1) = q + 1 := ⟨_, (Nat.sub_add_cancel (Nat.pow_pos (by decide))).symm⟩
    rw [sliceNumber_le_eq f (by rw [List.length_append]; omega), sliceNumber_le_eq f h, msByte_le_append_replicate,
      isNegative_padByte, leNat_append, leNat_replicate_padByte, List.length_append, List.length_replicate,
      Nat.pow_add 256 src.length, hq, Nat.add_sub_cancel]
    cases isNegative f (msByte src .le)
    · simp
    · simp only [if_true]
      push_cast
      ring

section Redundant

variable {c : Config} (hn : 1 ≤ c.n)
include hn

theorem decodeSlice_congr {e : Endian} {f : Flavour} {a b : List Byte} (h : sliceNumber e f a = sliceNumber e f b) :
    decodeSlice c a e f = decodeSlice c b e f := by
  rw [decodeSlice_eq_closedDecode c hn, decodeSlice_eq_closedDecode c hn, closedDecode, closedDecode, h]

theorem decodeSlice_le_append_pad (f : Flavour) {src : List Byte} (h : src.length ≠ 0) (m : Nat) :
    decodeSlice c (src ++ List.replicate m (padByte (isNegative f (msByte src .le)))) .le f
      = decodeSlice c src .le f :=
  decodeSlice_congr hn (sliceNumber_le_append_pad f h m)

theorem decodeSlice_be_pad_append (f : Flavour) {src : List Byte} (h : src.length ≠ 0) (m : Nat) :
    decodeSlice c (List.replicate m (padByte (isNegative f (msByte src .be))) ++ src) .be f
      = decodeSlice c src .be f := by
  rw [decodeSlice_be, List.reverse_append, List.reverse_replicate, msByte_be src h,
    decodeSlice_le_append_pad hn f (by rwa [List.length_reverse]), ← decodeSlice_be]

end Redundant

/-- Settles O34: pad bytes do not change the number, and the decode depends on the number alone. -/
theorem redundantSignBytesAreAccepted : Obligations.RedundantSignBytesAreAccepted := by
  refine fun c hn => ⟨fun src f m hsrc => ?_, fun e => ⟨decodeSlice_nil c e .signed, ?_⟩⟩
  · have hlen : src.length ≠ 0 := by simpa using hsrc
    exact ⟨decodeSlice_be_pad_append hn f hlen m, decodeSlice_le_append_pad hn f hlen m⟩
  · obtain ⟨x, hx, hv⟩ := decodeSlice_signed_of_length_le hn (src := [0xFF#8]) (c.total_pos hn) e
    exact ⟨x, hx, hv.trans (by cases e <;> decide)⟩

/-! The two flavours on the same bytes (R144). -/

/-- The bits above the slice: zeros in the unsigned value. -/
theorem getLsbD_above_of_decodeSlice_unsigned {c : Config} (hn : 1 ≤ c.n) {src : List Byte} {e : Endian} {y : Value c}
    (hy : decodeSlice c src e .unsigned = some y) {j : Nat} (hj : 8 * src.length ≤ j) : y.getLsbD j = false := by
  rw [BitVec.getLsbD, toNat_of_decodeSlice hn hy]
  exact Nat.testBit_lt_two_pow ((natOf_lt_two_pow e src).trans_le (Nat.pow_le_pow_right (by decide) hj))

section Flavours

variable {c : Config} (hn : 1 ≤ c.n) {src : List Byte} (h : src.length ≠ 0) {e : Endian}
include h

theorem sliceNumber_signed_of_msByte_lt (hmsb : (msByte src e).toNat < 0x80) :
    sliceNumber e .signed src = natOf e src := by
  have hneg : ¬ isNegative .signed (msByte src e) = true := by rw [isNegative_signed_iff]; omega
  rw [sliceNumber_eq e .signed h, if_neg hneg, sub_zero]

theorem sliceNumber_signed_neg_of_msByte_ge (hmsb : 0x80 ≤ (msByte src e).toNat) : sliceNumber e .signed src < 0 :=
  (sliceNumber_neg_iff e .signed h).2 ((isNegative_signed_iff _).2 hmsb)

theorem two_pow_le_natOf_of_msByte_ge (hmsb : 0x80 ≤ (msByte src e).toNat) :
    2 ^ (8 * src.length - 1) ≤ natOf e src := by
  have hneg := sliceNumber_signed_neg_of_msByte_ge h hmsb
  by_contra hlt
  rw [sliceNumber, if_neg h, signedRead, if_pos (Nat.lt_of_not_le hlt)] at hneg
  omega

/-- The bits above the slice: ones in the signed value of a negative slice. -/
theorem getLsbD_signExtend_above (hmsb : 0x80 ≤ (msByte src e).toNat) {j : Nat} (hj : 8 * src.length ≤ j)
    (hjv : j < c.valBits) :
    ((BitVec.ofNat (8 * src.length) (natOf e src)).signExtend c.valBits).getLsbD j = true := by
  have hneg := sliceNumber_signed_neg_of_msByte_ge h hmsb
  rw [sliceNumber_signed_eq_toInt e h] at hneg
  have htop : (BitVec.ofNat (8 * src.length) (natOf e src)).msb = true := by
    rw [BitVec.msb_eq_toInt, decide_eq_true_iff]
    exact hneg
  rw [BitVec.getLsbD_signExtend, if_neg (Nat.not_lt.2 hj), htop, decide_eq_true hjv]
  rfl

include hn

theorem exists_decodeSlice_signed_iff_of_msByte_lt (hmsb : (msByte src e).toNat < 0x80) :
    (∃ x, decodeSlice c src e .signed = some x) ↔ natOf e src < 2 ^ (c.valBits - 1) := by
  rw [exists_decodeSlice_iff_fits hn, sliceNumber_signed_of_msByte_lt h hmsb, fits_signed_iff]
  constructor
  · rintro ⟨-, hhi⟩
    exact_mod_cast hhi
  · intro hhi
    exact ⟨(neg_nonpos.2 (by positivity)).trans (Int.natCast_nonneg _), by exact_mod_cast hhi⟩

/-- A slice within capacity decodes signed to its pattern, sign-extended. -/
theorem decodeSlice_signed_eq_signExtend (hle : src.length ≤ c.total) :
    decodeSlice c src e .signed = some ((BitVec.ofNat (8 * src.length) (natOf e src)).signExtend c.valBits) := by
  refine (decodeSlice_eq_some_iff hn).2 ⟨fits_of_length_le hn hle e .signed, ?_⟩
  rw [sliceNumber_signed_eq_toInt e h]
  rfl

end Flavours

/-- Settles O35: below 0x80 both flavours see one number; from 0x80 they see two, which differ in the bits above the
slice, and an exact slice has no such bits. -/
theorem signedAndUnsignedOnTheSameBytes : Obligations.SignedAndUnsignedOnTheSameBytes := by
  intro c src e hn hsrc
  have h : src.length ≠ 0 := by simpa using hsrc
  refine ⟨fun hmsb => ⟨sliceNumber_signed_of_msByte_lt h hmsb, rfl,
      exists_decodeSlice_signed_iff_of_msByte_lt hn h hmsb,
      (exists_decodeSlice_iff_fits hn).trans (fits_unsigned_natCast_iff c _), fun x y hx hy => ?same⟩,
    fun hmsb => ⟨sliceNumber_signed_neg_of_msByte_ge h hmsb, two_pow_le_natOf_of_msByte_ge h hmsb,
      fun hshort => ?short, fun hex => ⟨fromBytes c src e, exactSliceDecodesAsTheArray c src e .signed hn hex,
        exactSliceDecodesAsTheArray c src e .unsigned hn hex⟩⟩⟩
  case same =>
    rw [← ((decodeSlice_eq_some_iff hn).1 hx).2, ← ((decodeSlice_eq_some_iff hn).1 hy).2,
      sliceNumber_signed_of_msByte_lt h hmsb]
    rfl
  case short =>
    obtain ⟨y, hy⟩ := exists_decodeSlice_of_length_le hn hshort.le e .unsigned
    have hx := decodeSlice_signed_eq_signExtend hn h (e := e) hshort.le
    have hones {j : Nat} (hj : 8 * src.length ≤ j) (hjv : j < c.valBits) :=
      getLsbD_signExtend_above h hmsb hj hjv
    have hzeros {j : Nat} (hj : 8 * src.length ≤ j) := getLsbD_above_of_decodeSlice_unsigned hn hy hj
    refine ⟨_, y, hx, hy, ?_, ?_, ?_, fun j hj hjv => ⟨hones hj hjv, hzeros hj⟩⟩
    · intro heq
      have hbits : 8 * src.length < c.valBits := by
        rw [c.valBits_eq]
        exact Nat.mul_lt_mul_of_pos_left hshort (by decide)
      have hone := hones le_rfl hbits
      rw [heq, hzeros le_rfl] at hone
      cases hone
    · rw [toInt_of_decodeSlice hn hx]
      exact sliceNumber_signed_neg_of_msByte_ge h hmsb
    · rw [toNat_of_decodeSlice hn hy]
      exact two_pow_le_natOf_of_msByte_ge h hmsb

end Sys2Proof.Machine
end
